-- ==== Sys2Proof/Word.lean ====
section
/-! DEFINITION. The word types of the block: the widths of its ports (spec/10_state.md R13, R14) and of its two
formats CMD and PW (spec/30_encoding.md R42, R46). -/

namespace Sys2Proof

/-- A byte of a laid-out sequence (R29). -/
abbrev Byte := BitVec 8

/-- An 8-bit color channel, saturation or value (R7 `CH_W`). -/
abbrev Chan := BitVec 8

/-- The 16-bit hue input (R7 `HUE_W`). -/
abbrev Hue := BitVec 16

/-- A duration field of a pulse word, in ticks (R7 `DUR_W`). -/
abbrev Ticks := BitVec 15

/-- A pulse word (R46). -/
abbrev PulseWord := BitVec 32

/-- The packed input bundle (R42). -/
abbrev Cmd := BitVec 64

/-- A pulse sequence: 25 words, index 0 to 24 (R26). -/
abbrev PulseSeq := Vector PulseWord 25

end Sys2Proof
end

