-- ==== Sys2Proof/Config.lean ====
section
/-! DEFINITION. What a build or an implementation fixes (spec/00_scope.md R7), and the free values the spec leaves
open (spec/93_implementation_defined.md I2, I3, I9). The free values are opaque constants without a body: a statement
about one holds whatever it is. -/

namespace Sys2Proof

/-- The host's reaction to a TransmissionFault (R7 `FAULT_POLICY`, R100). -/
inductive FaultPolicy where
  | halt
  | retry
  deriving DecidableEq, Repr

/-- The byte order of a laid-out sequence (R7 `BYTE_ORDER`, R29). -/
inductive ByteOrder where
  | little
  | big
  deriving DecidableEq, Repr

/-- The parameters of R7 that a build may set (I1, I6, I15, I16). The spec fixes them when the machine is built; a
machine state carries them unchanged, so that a statement about every state covers every build (assumption 5). -/
structure Params where
  /-- `TICKS_PER_US`: the tick rate the tick constants are computed for. -/
  ticksPerUs  : Nat
  /-- `T1H`: high duration of a 1 bit. -/
  t1h         : Ticks
  /-- `T1L`: low duration of a 1 bit. -/
  t1l         : Ticks
  /-- `T0H`: high duration of a 0 bit. -/
  t0h         : Ticks
  /-- `T0L`: low duration of a 0 bit. -/
  t0l         : Ticks
  /-- `FAULT_POLICY`. -/
  faultPolicy : FaultPolicy
  /-- `IDLE_LEVEL`: the level of the resting line, true for high. -/
  idleLevel   : Bool
  /-- `BYTE_ORDER`. -/
  byteOrder   : ByteOrder
  deriving DecidableEq, Repr

/-- The values of R7's table: 80 ticks per microsecond, `halt`, low, little-endian. -/
def Params.nominal : Params where
  ticksPerUs  := 80
  t1h         := 64
  t1l         := 36
  t0h         := 32
  t0l         := 68
  faultPolicy := .halt
  idleLevel   := false
  byteOrder   := .little

namespace Config

/-- `HUE_MOD`: the hue is taken modulo this (R7, R59). -/
def hueMod : Nat := 360

/-- `REGION_SPAN`: the width in degrees of a hue region (R7, R60). -/
def regionSpan : Nat := 60

/-- `N_DATA_BITS`: data bits of a frame (R7). -/
def nDataBits : Nat := 24

/-- `HOST_SAT`: the saturation the host passes (R7, R23). -/
def hostSat : Chan := 255

/-- `HOST_VAL`: the value the host passes (R7, R23). -/
def hostVal : Chan := 255

/-- `RESET_DELAY_US`: the host's delay after each transmission (R7, R96 step 3). -/
def resetDelayUs : Nat := 280

/-- `FRAME_DELAY_MS`: the host's cosmetic delay of each iteration (R7, R96 step 5). -/
def frameDelayMs : Nat := 10

/-- Free value: what draw `n` shows on `r_out` before the outputs have settled (R105, R109, I9; assumption 1). -/
opaque drawRed : Nat → Chan

/-- Free value: what draw `n` shows on `g_out` before the outputs have settled (R105, R109, I9; assumption 1). -/
opaque drawGreen : Nat → Chan

/-- Free value: what draw `n` shows on `b_out` before the outputs have settled (R105, R109, I9; assumption 1). -/
opaque drawBlue : Nat → Chan

/-- Free value: what draw `n` shows on `pw[k]` before the outputs have settled (R105, R109, I9; assumption 1). -/
opaque drawWord : Nat → Nat → PulseWord

/-- Free value: what draw `n` shows on `op_err` before the outputs have settled (R105, R109, I9; assumption 1). -/
opaque drawOpErr : Nat → Bool

/-- Free value: whether the transmission of draw `n` ends in a TransmissionFault (R100, I2; assumption 7). -/
opaque drawFaults : Nat → Bool

/-- Free value: the opaque cause of the TransmissionFault of draw `n` (R85, I3; assumption 7). -/
opaque drawCause : Nat → Nat

/-- Free value: after how many words the TransmissionFault of draw `n` comes (assumption 7). -/
opaque drawCut : Nat → Nat

end Config

end Sys2Proof
end

