-- ==== Sys2Proof/Syntax.lean ====
section
/-! DEFINITION. The operations of the block: one constructor per row of spec/opcode_table.json
(spec/30_encoding.md R43), with the fields of the input bundle that the operation reads, in the order of the spec's
assembler notation (R54). -/

namespace Sys2Proof

/-- An operation of the block. Every operand is a whole field of the input bundle, of exactly its width (R44). -/
inductive Instr where
  /-- CONV hue, sat, val (spec/40_color_converter.md R57). -/
  | conv (hue : Hue) (sat val : Chan)
  /-- ENC r, g, b (spec/41_pulse_encoder.md R72). -/
  | enc (r g b : Chan)
  /-- CONVENC hue, sat, val (spec/41_pulse_encoder.md R73). -/
  | convenc (hue : Hue) (sat val : Chan)
  /-- RSVD, the reserved operation (spec/30_encoding.md R53). -/
  | rsvd
  deriving DecidableEq, Repr

end Sys2Proof
end

