-- ==== Sys2Proof/WellFormed.lean ====
section
/-! DEFINITION. Well-formedness. An `Instr` cannot be ill-formed: each operand is a bit vector of its field's width
(spec/30_encoding.md R44), so `Instr.wf` asks nothing more. The build parameters can be: spec/00_scope.md R7 confines
the four tick constants, and fixes them at the documented clock. The operands of the host's assembler notation are
plain numbers; their check is `AsmLine.wf` of Machine/Assembler.lean. -/

namespace Sys2Proof

/-- Every `Instr` is well-formed: its operands are typed by their widths (R44). -/
def Instr.wf : Instr → Bool
  | .conv _ _ _ => true
  | .enc _ _ _ => true
  | .convenc _ _ _ => true
  | .rsvd => true

/-- A tick constant is in 1..32767 (R7); the upper bound is its 15-bit width. -/
def Ticks.wf (t : Ticks) : Bool := t != 0

/-- Each of the four tick constants is in 1..32767 (R7, R78). -/
def Params.ticksInRange (p : Params) : Bool :=
  Ticks.wf p.t1h && Ticks.wf p.t1l && Ticks.wf p.t0h && Ticks.wf p.t0l

/-- At 80 ticks per microsecond the tick constants are 64, 36, 32 and 68 (R7, R75); at another rate they are open. -/
def Params.documentedAt80 (p : Params) : Bool :=
  p.ticksPerUs != 80 || (p.t1h == 64 && p.t1l == 36 && p.t0h == 32 && p.t0l == 68)

/-- The parameters are ones R7 allows. -/
def Params.wf (p : Params) : Bool := p.ticksInRange && p.documentedAt80

end Sys2Proof
end

