-- ==== Sys2Proof/Decode.lean ====
section
/-! DEFINITION. The CMD format (spec/30_encoding.md R42 to R45): its fields, the total decode by `op`, the rejection of
what is not one CMD, and the encoder of the assembler notation (R54). -/

namespace Sys2Proof

/-- `op = CMD[1:0]` (R42). -/
def Cmd.op (w : Cmd) : BitVec 2 := w.extractLsb' 0 2

/-- `val_in = CMD[15:8]` (R42). -/
def Cmd.val (w : Cmd) : Chan := w.extractLsb' 8 8

/-- `sat_in = CMD[23:16]` (R42). -/
def Cmd.sat (w : Cmd) : Chan := w.extractLsb' 16 8

/-- `hue_in = CMD[39:24]` (R42). -/
def Cmd.hue (w : Cmd) : Hue := w.extractLsb' 24 16

/-- `b_in = CMD[47:40]` (R42). -/
def Cmd.b (w : Cmd) : Chan := w.extractLsb' 40 8

/-- `r_in = CMD[55:48]` (R42). -/
def Cmd.r (w : Cmd) : Chan := w.extractLsb' 48 8

/-- `g_in = CMD[63:56]` (R42). -/
def Cmd.g (w : Cmd) : Chan := w.extractLsb' 56 8

/-- The operation a CMD selects, from `op` alone; total (R43). -/
def decode (w : Cmd) : Instr :=
  if Cmd.op w = 0#2 then .conv (Cmd.hue w) (Cmd.sat w) (Cmd.val w)
  else if Cmd.op w = 1#2 then .enc (Cmd.r w) (Cmd.g w) (Cmd.b w)
  else if Cmd.op w = 2#2 then .convenc (Cmd.hue w) (Cmd.sat w) (Cmd.val w)
  else .rsvd

/-- Why a string of bits is not a CMD. -/
inductive DecodeReject where
  /-- The input format is exactly one 64-bit word (R52); more bits are no CMD. -/
  | longerThanCmd
  deriving DecidableEq, Repr

/-- Decoding of `nbits` bits given as a number. R52 knows the 64-bit CMD only; that a shorter string is read with zero bits
above it, and so is never rejected, is a DESIGN CHOICE (assumption 22). -/
def decodeBits (nbits w : Nat) : Except DecodeReject Instr :=
  if nbits ≤ 64 then .ok (decode (BitVec.ofNat 64 (w % 2 ^ nbits))) else .error .longerThanCmd

/-- The host's entry to the decoder: opcode_table.json numbers CMD's bits as R42 does. -/
def decodeTableWord (nbits w : Nat) : Option Instr :=
  match decodeBits nbits w with
  | .ok i => some i
  | .error _ => none

/-- CMD from its fields, bits 7:2 written 0 (R42). -/
def packCmd (g r b : Chan) (hue : Hue) (sat val : Chan) (op : BitVec 2) : Cmd :=
  g ++ r ++ b ++ hue ++ sat ++ val ++ 0#6 ++ op

/-- The `op` code of an operation (R43). -/
def Instr.opCode : Instr → BitVec 2
  | .conv _ _ _ => 0
  | .enc _ _ _ => 1
  | .convenc _ _ _ => 2
  | .rsvd => 3

/-- The CMD of an operation; fields it does not read are 0 (R54). -/
def encode (i : Instr) : Cmd :=
  match i with
  | .conv hue sat val => packCmd 0 0 0 hue sat val 0
  | .enc r g b => packCmd g r b 0 0 0 1
  | .convenc hue sat val => packCmd 0 0 0 hue sat val 2
  | .rsvd => packCmd 0 0 0 0 0 0 3

end Sys2Proof
end

