-- ==== Sys2Proof/Machine/State.lean ====
section
/-! DEFINITION. The state of the block and of its environment (spec/10_state.md), as plain data, one structure per agent
(spec/60_exceptions.md R93); the faults and refusals of a step; the state after reset (R24). -/

namespace Sys2Proof.Machine

/-- A color, "three independent 8-bit channel values" (spec/00_scope.md R11). -/
structure Rgb where
  r : Chan
  g : Chan
  b : Chan
  deriving DecidableEq, Repr

/-- The input bundle, exactly the fields of R13. -/
structure InBundle where
  op    : BitVec 2
  hueIn : Hue
  satIn : Chan
  valIn : Chan
  rIn   : Chan
  gIn   : Chan
  bIn   : Chan
  deriving DecidableEq, Repr

/-- The output bundle, exactly the fields of R14. -/
structure OutBundle where
  rgb   : Rgb
  pw    : PulseSeq
  opErr : Bool
  deriving DecidableEq, Repr

/-- What stands on the block's ports. The block itself holds no state (R12): `out` is a function of `inp` once `settled`
holds, and a draw before (R105, R109). -/
structure Block where
  inp     : InBundle
  out     : OutBundle
  /-- The inputs have been stable for `T_PD`. -/
  settled : Bool
  deriving DecidableEq, Repr

/-- The five steps of the host loop (R21, R96). -/
inductive Phase where
  | compute
  | transmit
  | resetDelay
  | advance
  | cosmeticDelay
  deriving DecidableEq, Repr

/-- The argument of a `sleep` (R55, R98). -/
inductive Duration where
  | us (n : Nat)
  | ms (n : Nat)
  deriving DecidableEq, Repr

/-- What `awaitCompletion` returns (R99). -/
inductive TxResult where
  | ok
  /-- TransmissionFault with its opaque cause (R85). -/
  | fault (cause : Nat)
  deriving DecidableEq, Repr

/-- The consumer's draw for one `awaitCompletion` (R100, I2): `fault cause cut` reports a TransmissionFault in place of
the word of index `cut`, or at the end of the words where there is no such word (assumption 7). -/
inductive AwaitDraw where
  | ok
  | fault (cause cut : Nat)
  deriving DecidableEq, Repr

/-- Whether the host runs or is suspended (R98, R99). -/
inductive Suspension where
  | running
  /-- Inside `awaitCompletion`, with the outcome the consumer will report. -/
  | awaiting (plan : AwaitDraw)
  /-- Inside `sleep`. -/
  | sleeping (d : Duration)
  deriving DecidableEq, Repr

/-- An operation whose hue operand is the host register `H` (R54). -/
inductive HueOp where
  | conv
  | convenc
  deriving DecidableEq, Repr

/-- One line of a host program (R54, R55). `TX` is `transmit` then `awaitCompletion` (R99); the two also stand alone, as
do driving the inputs without waiting and waiting out `T_PD`, so that the hazards of R109 to R111 can be met. That the
consumer's read by index and its laying out of a sequence happen at lines of the host's program, and so at no other moment,
is a DESIGN CHOICE (assumption 23). -/
inductive HostLine where
  /-- A block operation given by its CMD: drive the inputs, wait out `T_PD`. -/
  | issue (cmd : Cmd)
  /-- CONV or CONVENC with `H` in `hue_in`. -/
  | issueHue (op : HueOp) (sat val : Chan)
  /-- Drive the inputs and do not wait (R109). -/
  | drive (cmd : Cmd)
  /-- Wait out `T_PD` with the inputs unchanged (R39, R109). -/
  | settle
  /-- `TX` (R55). -/
  | tx
  /-- `transmit(pw[0..24])` alone (R99). -/
  | transmit
  /-- `awaitCompletion` alone (R99). -/
  | await
  /-- `SLEEP_US n` (R55). -/
  | sleepUs (n : Nat)
  /-- `SLEEP_MS n` (R55). -/
  | sleepMs (n : Nat)
  /-- `HADV` (R55, R97). -/
  | hadv
  /-- `JMP label`, the label resolved to a line number (R55). -/
  | jmp (target : Nat)
  /-- The consumer's `MemRead(k, 4)` (R34). -/
  | readWord (k : Nat)
  /-- Lay the sequence into the consumer's buffer at byte `base` (R29). -/
  | layOut (base : Nat)
  deriving DecidableEq, Repr

/-- A host program in progress. -/
structure Script where
  lines      : List HostLine
  /-- The line the host performs next. -/
  pos        : Nat
  /-- The line of the last issued block operation, 0 before the first: where a repeated frame starts (R100; assumption 10). -/
  frameStart : Nat
  deriving DecidableEq, Repr

/-- The host agent (R20, R21, R96 to R101). -/
structure HostAgent where
  /-- `H`, in 0..359 (R20). -/
  hue        : Nat
  /-- The step of the loop the host is in, when it runs its loop (R21). -/
  phase      : Phase
  /-- A TransmissionFault stopped the host (R21, R100). -/
  halted     : Bool
  /-- The reset delay of a repeated frame is due (R100 `retry`). -/
  retrying   : Bool
  suspension : Suspension
  /-- A test program in the notation of R54 to R56; none for the loop of R96. -/
  script     : Option Script
  /-- The program has issued the reserved operation (R53, I7; assumption 6). -/
  atFault    : Bool
  deriving DecidableEq, Repr

/-- A transmission in flight (R99). -/
structure Transmission where
  /-- The words sent so far, in order (R35). -/
  sent  : List PulseWord
  /-- The outputs had settled at `transmit`; if not, every word read is a draw (R109; assumption 8). -/
  clean : Bool
  deriving DecidableEq, Repr

/-- The transmission channel (R22). -/
inductive Channel where
  | idle
  | busy (t : Transmission)
  deriving DecidableEq, Repr

/-- A transmission that has ended: the words sent, possibly none, and the result (R103; assumption 24). -/
structure Frame where
  words  : List PulseWord
  result : TxResult
  deriving DecidableEq, Repr

/-- Byte memory in canonical form: addresses strictly rising; an unlisted address holds no value (assumption 13). -/
abbrev Memory := List Host.Cell

/-- The consumer (R22, R99). -/
structure Consumer where
  channel    : Channel
  /-- Ended transmissions, oldest first (R103). -/
  frames     : List Frame
  /-- The buffer a sequence is laid into (R29). -/
  buffer     : Memory
  /-- The last word read by index (R34). -/
  readData   : PulseWord
  /-- The outcomes of the coming `awaitCompletion` calls, supplied from outside; when empty, free values. -/
  awaitDraws : List AwaitDraw
  deriving DecidableEq, Repr

end Sys2Proof.Machine

namespace Sys2Proof.Machine

/-- The whole machine. -/
structure State where
  params   : Params
  block    : Block
  host     : HostAgent
  consumer : Consumer
  /-- The number of the next free value. -/
  draws    : Nat
  deriving DecidableEq, Repr

/-- Why a step stops. No operation of the block raises any of these (spec/60_exceptions.md R84). -/
inductive Fault where
  /-- Raised by the step of a host with `halted = 1`: it "has no further step, for ever" (R100, R103). The spec's own
  stuck state. Safe. -/
  | hostHalted
  /-- Raised by a host action that changes the input bundle while the channel is `busy`: "a fault of the program" (R110).
  Safe. -/
  | inputChangedWhileBusy
  /-- Raised by `transmit` while the channel is `busy`: "a fault of the program" (R111). Safe. -/
  | transmitWhileBusy
  /-- Raised by `awaitCompletion` with no transmission in flight; the spec gives it no meaning (assumption 12). Safe. -/
  | awaitWithoutTransmission
  /-- Raised by the step of a host program that has no next line; the spec gives no further step (assumption 11). Safe. -/
  | programEnded
  deriving DecidableEq, Repr

/-- Why a step has no meaning. -/
inductive Refusal where
  /-- An instruction that has no meaning yet; raised by no arm of this model. Safe. -/
  | notModelled (mnemonic : String)
  /-- Raised by a consumer read of index 25 or above, which R33 says must be refused. Safe. -/
  | noSuchPulseWord (k : Nat)
  deriving DecidableEq, Repr

/-- The output bundle that draw `n` shows before the outputs have settled (R105, R109, I9). -/
def drawnOut (n : Nat) : OutBundle where
  rgb   := ⟨Config.drawRed n, Config.drawGreen n, Config.drawBlue n⟩
  pw    := Vector.ofFn fun k => Config.drawWord n k.val
  opErr := Config.drawOpErr n

/-- The machine right after reset (R24, R105, R106). The inputs are 0 (DESIGN CHOICE, assumption 2) and the outputs a draw
(assumption 1); `readData`, `retrying`, `atFault`, `awaitDraws` and `draws` are DESIGN CHOICES (assumptions 1, 6, 7, 10, 14). -/
def State.reset : State where
  params   := Params.nominal
  block    := { inp := ⟨0, 0, 0, 0, 0, 0, 0⟩, out := drawnOut 0, settled := false }
  host     := { hue := 0, phase := .compute, halted := false, retrying := false, suspension := .running, script := none, atFault := false }
  consumer := { channel := .idle, frames := [], buffer := [], readData := 0, awaitDraws := [] }
  draws    := 1

end Sys2Proof.Machine
end

