-- ==== Sys2Proof/Machine/Flags.lean ====
section
/-! DEFINITION. The status the block and the consumer report. The block has one flag, `op_err`, and no carry, overflow,
zero or sign flag (spec/10_state.md R17). -/

namespace Sys2Proof.Machine

/-- `op_err = (op == 3) ? 1 : 0` (R17). -/
def opErrOf (op : BitVec 2) : Bool := op == 3#2

/-- The code of what `awaitCompletion` reports: 1 for a TransmissionFault (spec/60_exceptions.md R85), none otherwise. -/
def TxResult.code : TxResult → Option Nat
  | .ok => none
  | .fault _ => some 1

end Sys2Proof.Machine
end

