-- ==== Sys2Proof/Machine/Operands.lean ====
section
/-! DEFINITION. Operand forms: the input bundle taken from a CMD (spec/30_encoding.md R42, R44), a bundle packed into a
CMD, and the operand `H` (R54). -/

namespace Sys2Proof.Machine

/-- The input bundle a CMD drives: each field whole from its bits; bits 7:2 are not connected (R42, R44, R45). -/
def InBundle.ofCmd (w : Cmd) : InBundle where
  op    := Cmd.op w
  hueIn := Cmd.hue w
  satIn := Cmd.sat w
  valIn := Cmd.val w
  rIn   := Cmd.r w
  gIn   := Cmd.g w
  bIn   := Cmd.b w

/-- The CMD of a bundle, bits 7:2 written 0 (R42). -/
def InBundle.toCmd (b : InBundle) : Cmd := packCmd b.gIn b.rIn b.bIn b.hueIn b.satIn b.valIn b.op

/-- The current value of the host register `H`, as it is placed in `hue_in` (R54). -/
def hueOperand (h : Nat) : Hue := BitVec.ofNat 16 h

/-- The CMD of `CONV H, sat, val` or `CONVENC H, sat, val` (R54). -/
def hueCmd (op : HueOp) (sat val : Chan) (h : Nat) : Cmd :=
  match op with
  | .conv => encode (.conv (hueOperand h) sat val)
  | .convenc => encode (.convenc (hueOperand h) sat val)

end Sys2Proof.Machine
end

