-- ==== Sys2Proof/Machine/Ops.lean ====
section
/-! DEFINITION. The named operations: on the block's ports, on the pulse words, on byte memory, on the host's position,
and what a TransmissionFault does to the host. The block takes no exception and returns from none
(spec/60_exceptions.md R88, R89), so `HostAgent.takeTransmissionFault` is the only operation of that kind. -/

namespace Sys2Proof.Machine

/-- One outcome after another: the second action runs on the first one's next state. -/
def andThen (o : Host.Outcome State Fault Refusal) (f : State → Host.Outcome State Fault Refusal) :
    Host.Outcome State Fault Refusal :=
  match o with
  | .next s => f s
  | .fault r => .fault r
  | .refused r => .refused r

/-! ### The block's ports -/

/-- The block's answer on the output bundle, every field driven, once the inputs have been stable for `T_PD` (R12, R14). -/
def State.answer (o : OutBundle) (s : State) : State := { s with block := { s.block with out := o, settled := true } }

/-- New inputs, with the outputs a draw until they settle (R109). That `block.out` keeps this one draw through the window,
while every sample taken in it is a draw of its own, is a DESIGN CHOICE (assumption 1). -/
def State.changeInputs (b : InBundle) (s : State) : State :=
  { s with block := { inp := b, out := drawnOut s.draws, settled := false }, draws := s.draws + 1 }

/-- The host drives the input bundle. Driving what already stands there is no change; a change while the channel is
`busy` is a fault of the program (spec/70_reset_and_hazards.md R110). -/
def drive (b : InBundle) (s : State) : Host.Outcome State Fault Refusal :=
  if b = s.block.inp then .next s
  else match s.consumer.channel with
    | .busy _ => .fault .inputChangedWhileBusy
    | .idle => .next (s.changeInputs b)

/-- Word `k` of the outputs, as something that samples them now reads it: the word itself if the outputs have settled and
`clean` holds, else a fresh draw (spec/20_memory.md R32, R34; R109). -/
def State.sampleWord (clean : Bool) (k : Fin 25) (s : State) : PulseWord × State :=
  if s.block.settled && clean then (s.block.out.pw[k], s)
  else ((drawnOut s.draws).pw[k], { s with draws := s.draws + 1 })

/-- The whole sequence, as something that samples it now reads it (R109). -/
def State.sampleSeq (s : State) : PulseSeq × State :=
  if s.block.settled then (s.block.out.pw, s)
  else ((drawnOut s.draws).pw, { s with draws := s.draws + 1 })

/-! ### Byte memory (spec/20_memory.md R29) -/

/-- The canonical form: addresses strictly rising. No address is listed without a value, so nothing else is asked. -/
abbrev Memory.wf (m : Memory) : Prop := (m.map Prod.fst).Pairwise (· < ·)

/-- The byte at an address; none where nothing has been laid (assumption 13). -/
def Memory.read : Memory → Nat → Option Byte
  | [], _ => none
  | (x, c) :: m, a => if a = x then some c else Memory.read m a

/-- One byte written, the addresses kept rising. -/
def Memory.write : Memory → Nat → Byte → Memory
  | [], a, v => [(a, v)]
  | (x, c) :: m, a, v =>
    if a < x then (a, v) :: (x, c) :: m
    else if a = x then (a, v) :: m
    else (x, c) :: Memory.write m a v

/-- Byte `i` of a laid-out word: `w[8*i+7 : 8*i]` in little-endian order, the mirror of it in big-endian (R29, I15). -/
def wordByte (order : ByteOrder) (w : PulseWord) (i : Nat) : Byte :=
  match order with
  | .little => w.extractLsb' (8 * i) 8
  | .big => w.extractLsb' (8 * (3 - i)) 8

/-- One word laid at four consecutive bytes. -/
def Memory.writeWord (order : ByteOrder) (m : Memory) (a : Nat) (w : PulseWord) : Memory :=
  (((m.write a (wordByte order w 0)).write (a + 1) (wordByte order w 1)).write (a + 2) (wordByte order w 2)).write
    (a + 3) (wordByte order w 3)

/-- Words laid one after another, word `k` at byte offset `4*k` (R29). -/
def Memory.writeWords (order : ByteOrder) (m : Memory) (a : Nat) : List PulseWord → Memory
  | [] => m
  | w :: ws => Memory.writeWords order (m.writeWord order a w) (a + 4) ws

/-! ### The host's position -/

/-- The step of the loop after a step (spec/60_exceptions.md R96). -/
def Phase.next : Phase → Phase
  | .compute => .transmit
  | .transmit => .resetDelay
  | .resetDelay => .advance
  | .advance => .cosmeticDelay
  | .cosmeticDelay => .compute

/-- The host goes on to its next step or line, and runs. -/
def HostAgent.proceed (h : HostAgent) : HostAgent :=
  match h.script with
  | none => { h with suspension := .running, phase := h.phase.next }
  | some p => { h with suspension := .running, script := some { p with pos := p.pos + 1 } }

/-- The host goes on after a block operation, which is where a repeated frame would start (assumption 10). -/
def HostAgent.proceedFromIssue (h : HostAgent) : HostAgent :=
  match h.script with
  | none => { h with suspension := .running, phase := h.phase.next }
  | some p => { h with suspension := .running, script := some { p with pos := p.pos + 1, frameStart := p.pos } }

/-- The host goes back to the start of the frame it repeats: step 1 of the loop (R100 `retry`), or the line of the last
block operation, or line 0 where the program has issued none (DESIGN CHOICE, assumption 10). -/
def HostAgent.restartFrame (h : HostAgent) : HostAgent :=
  match h.script with
  | none => { h with suspension := .running, retrying := false, phase := .compute }
  | some p => { h with suspension := .running, retrying := false, script := some { p with pos := p.frameStart } }

/-- `JMP` (R55): continue at a line. The loop of R96 has no jump. -/
def HostAgent.jump (target : Nat) (h : HostAgent) : HostAgent :=
  match h.script with
  | none => h
  | some p => { h with script := some { p with pos := target } }

/-- `H <- (H + 1) mod 360` (R97). -/
def advanceHue (h : Nat) : Nat := (h + 1) % Config.hueMod

/-- What a TransmissionFault does to the host (R100): under `halt` it stops for ever; under `retry` it goes to the reset
delay, after which the frame is repeated (the phase is the loop's, and a program keeps its line until then). `H` keeps its
value under both (R101). -/
def HostAgent.takeTransmissionFault (policy : FaultPolicy) (h : HostAgent) : HostAgent :=
  match policy with
  | .halt => { h with suspension := .running, halted := true }
  | .retry =>
    match h.script with
    | none => { h with suspension := .running, retrying := true, phase := .resetDelay }
    | some _ => { h with suspension := .running, retrying := true }

/-- The host after `awaitCompletion` has returned (R99, R100). -/
def HostAgent.afterAwait (policy : FaultPolicy) (r : TxResult) (h : HostAgent) : HostAgent :=
  match r with
  | .ok => h.proceed
  | .fault _ => h.takeTransmissionFault policy

/-- The host suspends itself for a duration (R98). -/
def HostAgent.sleep (d : Duration) (h : HostAgent) : HostAgent := { h with suspension := .sleeping d }

/-- The scheduler resumes a sleeping host (R98); after the reset delay of a repeated frame the host goes back to the
frame's start, else on. -/
def HostAgent.wake (h : HostAgent) : HostAgent := if h.retrying then h.restartFrame else h.proceed

/-- The host with a new agent state. -/
def State.mapHost (f : HostAgent → HostAgent) (s : State) : State := { s with host := f s.host }

end Sys2Proof.Machine
end

