-- ==== Sys2Proof/Machine/Converter.lean ====
section
/-! DEFINITION. The color-space converter and CONV (spec/40_color_converter.md). Intermediates are natural numbers, so
the arithmetic is exact (R68); each division truncates (R66); the result is narrowed to 8 bits at the end. -/

namespace Sys2Proof.Machine

/-- `h = hue mod 360` (R59). -/
def hueNorm (hue : Nat) : Nat := hue % Config.hueMod

/-- `region = h / 60` (R60). -/
def hueRegion (h : Nat) : Nat := h / Config.regionSpan

/-- `rem = (h - region * 60) * 6` (R61). -/
def hueRem (h : Nat) : Nat := (h - hueRegion h * Config.regionSpan) * 6

/-- `p = v * (255 - s) / 255` (R62). -/
def levelP (s v : Nat) : Nat := v * (255 - s) / 255

/-- `q = v * (255 - s * rem / 360) / 255` (R63). -/
def levelQ (s v rem : Nat) : Nat := v * (255 - s * rem / 360) / 255

/-- `t = v * (255 - s * (360 - rem) / 360) / 255` (R64). -/
def levelT (s v rem : Nat) : Nat := v * (255 - s * (360 - rem) / 360) / 255

/-- A color from three numbers, each in 0..255 (R69). -/
def Rgb.ofNats (r g b : Nat) : Rgb := ⟨BitVec.ofNat 8 r, BitVec.ofNat 8 g, BitVec.ofNat 8 b⟩

/-- The triple of a region (R65). Region is below 6 for every hue, so the last row is region 5 alone and there is no
fallback color (R67). -/
def selectRgb (region v p q t : Nat) : Rgb :=
  match region with
  | 0 => Rgb.ofNats v t p
  | 1 => Rgb.ofNats q v p
  | 2 => Rgb.ofNats p v t
  | 3 => Rgb.ofNats p q v
  | 4 => Rgb.ofNats t p v
  | _ => Rgb.ofNats v p q

/-- `hsvToRgb(hue, s, v)` (R58). -/
def hsvToRgb (hue : Hue) (s v : Chan) : Rgb :=
  let h := hueNorm hue.toNat
  let rem := hueRem h
  selectRgb (hueRegion h) v.toNat (levelP s.toNat v.toNat) (levelQ s.toNat v.toNat rem) (levelT s.toNat v.toNat rem)

/-- The all-zero sequence that CONV and the reserved operation drive (R53, R57). -/
def zeroSeq : PulseSeq := Vector.replicate 25 0

/-- The output bundle of CONV (R57). -/
def convOut (hue : Hue) (sat val : Chan) : OutBundle where
  rgb   := hsvToRgb hue sat val
  pw    := zeroSeq
  opErr := opErrOf 0

/-- CONV (R57). -/
def execConv (hue : Hue) (sat val : Chan) (s : State) : Host.Outcome State Fault Refusal :=
  .next (s.answer (convOut hue sat val))

end Sys2Proof.Machine
end

