-- ==== Sys2Proof/Machine/Encoder.lean ====
section
/-! DEFINITION. The WS2812 pulse encoder, ENC and CONVENC (spec/41_pulse_encoder.md), the pulse word
(spec/30_encoding.md R46 to R49), the GRB word (R50, R51), and what a word means on the line (R79). -/

namespace Sys2Proof.Machine

/-- `pword(dh, dl) = {1'b0, dl[14:0], 1'b1, dh[14:0]}` (R47). -/
def pword (dh dl : Ticks) : PulseWord := 0#1 ++ dl ++ 1#1 ++ dh

/-- `dur0`, the high duration (R46). -/
def pwDur0 (w : PulseWord) : Ticks := w.extractLsb' 0 15

/-- `lvl0`, the polarity marker (R46). -/
def pwLvl0 (w : PulseWord) : Bool := w.getLsbD 15

/-- `dur1`, the low duration (R46). -/
def pwDur1 (w : PulseWord) : Ticks := w.extractLsb' 16 15

/-- `lvl1`, bit 31 (R46; spec/90_conflicts.md C3). -/
def pwLvl1 (w : PulseWord) : Bool := w.getLsbD 31

/-- The GRB word `{g[7:0], r[7:0], b[7:0]}` (R50). -/
def grbWord (c : Rgb) : BitVec 24 := c.g ++ c.r ++ c.b

/-- The data word of a bit (R74, R75). -/
def bitWord (p : Params) (bit : Bool) : PulseWord := if bit then pword p.t1h p.t1l else pword p.t0h p.t0l

/-- `encode(r, g, b)`: word `k` carries bit `23 - k` of the GRB word, word 24 is the terminator (R74, R76). -/
def encodeRgb (p : Params) (c : Rgb) : PulseSeq :=
  Vector.ofFn fun k => if k.val < Config.nDataBits then bitWord p ((grbWord c).getLsbD (23 - k.val)) else 0

/-- The bits of words read back: 1 where `dur0` is `T1H`, most significant first (R81). -/
def decodeWords (p : Params) (ws : List PulseWord) : Nat :=
  ws.foldl (fun acc w => 2 * acc + (if pwDur0 w = p.t1h then 1 else 0)) 0

/-- The 24 data words of a sequence read back into a packed color (R81). -/
def decodeSeq (p : Params) (q : PulseSeq) : Nat := decodeWords p (q.toList.take Config.nDataBits)

/-- A stretch of the line at one level (R79). -/
structure Pulse where
  level : Bool
  ticks : Nat
  deriving DecidableEq, Repr

/-- A data word on the line: level `w[15]` for `w[14:0]` ticks, then `w[31]` for `w[30:16]` ticks (R79). -/
def wordPulses (w : PulseWord) : List Pulse :=
  [⟨pwLvl0 w, (pwDur0 w).toNat⟩, ⟨pwLvl1 w, (pwDur1 w).toNat⟩]

/-- What the words of a frame put on the line (R79): whole words, also before a TransmissionFault (assumption 25). -/
def Frame.pulses (f : Frame) : List Pulse := f.words.flatMap wordPulses

/-- The output bundle of ENC (R72). -/
def encOut (p : Params) (r g b : Chan) : OutBundle where
  rgb   := ⟨r, g, b⟩
  pw    := encodeRgb p ⟨r, g, b⟩
  opErr := opErrOf 1

/-- The output bundle of CONVENC (R73). -/
def convencOut (p : Params) (hue : Hue) (sat val : Chan) : OutBundle where
  rgb   := hsvToRgb hue sat val
  pw    := encodeRgb p (hsvToRgb hue sat val)
  opErr := opErrOf 2

/-- ENC (R72). -/
def execEnc (r g b : Chan) (s : State) : Host.Outcome State Fault Refusal :=
  .next (s.answer (encOut s.params r g b))

/-- CONVENC (R73). -/
def execConvenc (hue : Hue) (sat val : Chan) (s : State) : Host.Outcome State Fault Refusal :=
  .next (s.answer (convencOut s.params hue sat val))

end Sys2Proof.Machine
end

