-- ==== Sys2Proof/Machine/Consumer.lean ====
section
/-! DEFINITION. The consumer (the source's TransmissionPort): `transmit`, `awaitCompletion`, the words sent one a step, the
end of a transmission (spec/60_exceptions.md R99, R100; spec/20_memory.md R34 to R37), the word read and the laid-out
sequence (R29, R34). -/

namespace Sys2Proof.Machine

/-- `transmit(pw[0..24])`: the channel becomes `busy`; on a `busy` channel a fault of the program (R99, R111). -/
def startTransmit (s : State) : Host.Outcome State Fault Refusal :=
  match s.consumer.channel with
  | .busy _ => .fault .transmitWhileBusy
  | .idle => .next { s with consumer := { s.consumer with channel := .busy ⟨[], s.block.settled⟩ } }

/-- The outcome free values give to draw `n` (R100, I2, I3; assumption 7). -/
def drawnAwait (n : Nat) : AwaitDraw :=
  if Config.drawFaults n then .fault (Config.drawCause n) (Config.drawCut n) else .ok

/-- The host enters `awaitCompletion`: the consumer draws the outcome, from what the environment has in store or else from
the free values (R100; assumption 7). -/
def State.suspendInAwait (s : State) : State :=
  match s.consumer.awaitDraws with
  | d :: ds =>
    { s with host := { s.host with suspension := .awaiting d }, consumer := { s.consumer with awaitDraws := ds } }
  | [] => { s with host := { s.host with suspension := .awaiting (drawnAwait s.draws) }, draws := s.draws + 1 }

/-- `awaitCompletion` (R99); with no transmission in flight it has no meaning (assumption 12). -/
def startAwait (s : State) : Host.Outcome State Fault Refusal :=
  match s.consumer.channel with
  | .idle => .fault .awaitWithoutTransmission
  | .busy _ => .next s.suspendInAwait

/-- What `awaitCompletion` returns for an outcome drawn (R99). -/
def AwaitDraw.result : AwaitDraw → TxResult
  | .ok => .ok
  | .fault cause _ => .fault cause

/-- Whether a TransmissionFault comes now that `n` words have been sent. That it comes between whole words only, and never
within a word or between its two phases, is a DESIGN CHOICE (assumption 25). -/
def AwaitDraw.cutsAt (d : AwaitDraw) (n : Nat) : Bool :=
  match d with
  | .ok => false
  | .fault _ cut => decide (cut ≤ n)

/-- The transmission ends: the channel is `idle` after `Ok` and after a fault, the frame is on record, and the host
observes the result (R99, R100, R103). That a transmission which sent no word is on record too, as a frame without words, is
a DESIGN CHOICE (assumption 24). -/
def State.endTransmission (t : Transmission) (plan : AwaitDraw) (s : State) : State :=
  { s with
    host := s.host.afterAwait s.params.faultPolicy plan.result
    consumer := { s.consumer with channel := .idle, frames := s.consumer.frames ++ [⟨t.sent, plan.result⟩] } }

/-- One word sent (R35). -/
def State.sendWord (t : Transmission) (w : PulseWord) (s : State) : State :=
  { s with consumer := { s.consumer with channel := .busy { t with sent := t.sent ++ [w] } } }

/-- One step of the consumer while the host awaits: the next word in index order is sent (R35), or the transmission ends,
at the first zero word (R36), after the last word (assumption 9), or by the TransmissionFault drawn (R100), which finds each
word sent whole or not at all (assumption 25). -/
def awaitStep (plan : AwaitDraw) (s : State) : Host.Outcome State Fault Refusal :=
  match s.consumer.channel with
  | .idle => .fault .awaitWithoutTransmission
  | .busy t =>
    if plan.cutsAt t.sent.length then .next (s.endTransmission t plan)
    else if h : t.sent.length < 25 then
      if (s.sampleWord t.clean ⟨t.sent.length, h⟩).1 = 0 then
        .next ((s.sampleWord t.clean ⟨t.sent.length, h⟩).2.endTransmission t plan)
      else .next ((s.sampleWord t.clean ⟨t.sent.length, h⟩).2.sendWord t (s.sampleWord t.clean ⟨t.sent.length, h⟩).1)
    else .next (s.endTransmission t plan)

/-- The level of the line: at rest `IDLE_LEVEL`, during a transmission where the last word sent leaves it (R79). -/
def State.lineLevel (s : State) : Bool :=
  match s.consumer.channel with
  | .idle => s.params.idleLevel
  | .busy t =>
    match t.sent.getLast? with
    | none => s.params.idleLevel
    | some w => pwLvl1 w

/-- The consumer's `MemRead(k, 4)` (R34); an index of 25 or above is refused (R33). When it happens is assumption 23. -/
def readPulseWord (k : Nat) (s : State) : Host.Outcome State Fault Refusal :=
  if h : k < 25 then
    .next { (s.sampleWord true ⟨k, h⟩).2 with
      consumer := { s.consumer with readData := (s.sampleWord true ⟨k, h⟩).1 } }
  else .refused (.noSuchPulseWord k)

/-- The sequence laid into the consumer's buffer, word `k` at byte offset `4*k` from the base (R29). When
it happens is assumption 23. -/
def State.layOut (base : Nat) (s : State) : State :=
  { s.sampleSeq.2 with
    consumer := { s.consumer with
      buffer := Memory.writeWords s.params.byteOrder s.consumer.buffer base s.sampleSeq.1.toList } }

end Sys2Proof.Machine
end

