-- ==== Sys2Proof/Machine/Reserved.lean ====
section
/-! DEFINITION. The reserved operation (spec/30_encoding.md R53), and the block's whole function `F` from the input bundle
to the output bundle (spec/10_state.md R12). -/

namespace Sys2Proof.Machine

/-- The output bundle of the reserved operation: all zero, `op_err = 1` (R53). -/
def rsvdOut : OutBundle where
  rgb   := ⟨0, 0, 0⟩
  pw    := zeroSeq
  opErr := opErrOf 3

/-- RSVD (R53): the block answers; the issuing program's fault is the host's (`HostAgent.afterIssue`, assumption 6). -/
def execRsvd (s : State) : Host.Outcome State Fault Refusal := .next (s.answer rsvdOut)

/-- The block's function `F` (R12), by `op` (R43). -/
def blockF (p : Params) (b : InBundle) : OutBundle :=
  if b.op = 0#2 then convOut b.hueIn b.satIn b.valIn
  else if b.op = 1#2 then encOut p b.rIn b.gIn b.bIn
  else if b.op = 2#2 then convencOut p b.hueIn b.satIn b.valIn
  else rsvdOut

end Sys2Proof.Machine
end

