-- ==== Sys2Proof/Machine/Dispatch.lean ====
section
/-! DEFINITION. Which meaning each operation of the block has. -/

namespace Sys2Proof.Machine

def exec (i : Instr) (s : State) : Host.Outcome State Fault Refusal :=
  match i with
  | .conv hue sat val => Sys2Proof.Machine.execConv hue sat val s
  | .enc r g b => Sys2Proof.Machine.execEnc r g b s
  | .convenc hue sat val => Sys2Proof.Machine.execConvenc hue sat val s
  | .rsvd => Sys2Proof.Machine.execRsvd s

end Sys2Proof.Machine
end

