-- ==== Sys2Proof/Machine/HostLoop.lean ====
section
/-! DEFINITION. The host agent (spec/60_exceptions.md R96 to R101): the five steps of its loop, the lines of a test
program (spec/30_encoding.md R54, R55), and its next action. -/

namespace Sys2Proof.Machine

/-- The action of a step of the loop (R96; R23 for saturation and value). -/
def Phase.line : Phase → HostLine
  | .compute => .issueHue .convenc Config.hostSat Config.hostVal
  | .transmit => .tx
  | .resetDelay => .sleepUs Config.resetDelayUs
  | .advance => .hadv
  | .cosmeticDelay => .sleepMs Config.frameDelayMs

/-- The host's next action when it runs: the reset delay of a repeated frame (R100), else the step of its loop or the line
of its program; none where the program has no such line. -/
def HostAgent.action (h : HostAgent) : Option HostLine :=
  if h.retrying then some (.sleepUs Config.resetDelayUs)
  else match h.script with
    | none => some h.phase.line
    | some p => p.lines[p.pos]?

/-- The CMD of an action that issues a block operation. -/
def HostAgent.lineCmd (h : HostAgent) : HostLine → Option Cmd
  | .issue cmd => some cmd
  | .issueHue op sat val => some (hueCmd op sat val h.hue)
  | .drive _ => none
  | .settle => none
  | .tx => none
  | .transmit => none
  | .await => none
  | .sleepUs _ => none
  | .sleepMs _ => none
  | .hadv => none
  | .jmp _ => none
  | .readWord _ => none
  | .layOut _ => none

/-- The block operation the host issues at its next step, if that is what it does next. -/
def State.nextCmd (s : State) : Option Cmd :=
  if s.host.halted then none
  else match s.host.suspension with
    | .awaiting _ => none
    | .sleeping _ => none
    | .running => s.host.action.bind s.host.lineCmd

/-- After the block has answered: an issue of the reserved operation is the program's fault (R53, I7; assumption 6), and
the host goes on. -/
def HostAgent.afterIssue (cmd : Cmd) (h : HostAgent) : HostAgent :=
  ({ h with atFault := h.atFault || opErrOf (Cmd.op cmd) } : HostAgent).proceedFromIssue

/-- A block operation: the host drives the inputs, waits until the outputs have settled, and goes on (R96 step 1; R54). -/
def issue (cmd : Cmd) (s : State) : Host.Outcome State Fault Refusal :=
  andThen (drive (InBundle.ofCmd cmd) s) fun s1 =>
    andThen (exec (decode cmd) s1) fun s2 => .next (s2.mapHost (HostAgent.afterIssue cmd))

/-- One action of the running host. The lines `drive` and `settle` are the model's own; a reserved bundle driven and settled
through them is no issue in the sense of R53, so the block answers it and `atFault` stays as it was (DESIGN CHOICE,
assumption 6). Outputs settle at an issue and at `settle`; that no other action, and no step of a host that awaits or sleeps,
ends the window of R105 and R109 is a DESIGN CHOICE (assumption 26). -/
def lineStep (l : HostLine) (s : State) : Host.Outcome State Fault Refusal :=
  match l with
  | .issue cmd => issue cmd s
  | .issueHue op sat val => issue (hueCmd op sat val s.host.hue) s
  | .drive cmd => andThen (drive (InBundle.ofCmd cmd) s) fun s1 => .next (s1.mapHost HostAgent.proceed)
  | .settle => .next ((s.answer (blockF s.params s.block.inp)).mapHost HostAgent.proceed)
  | .tx => andThen (startTransmit s) startAwait
  | .transmit => andThen (startTransmit s) fun s1 => .next (s1.mapHost HostAgent.proceed)
  | .await => startAwait s
  | .sleepUs n => .next (s.mapHost (HostAgent.sleep (.us n)))
  | .sleepMs n => .next (s.mapHost (HostAgent.sleep (.ms n)))
  | .hadv => .next (s.mapHost fun h => ({ h with hue := advanceHue h.hue } : HostAgent).proceed)
  | .jmp target => .next (s.mapHost (HostAgent.jump target))
  | .readWord k => andThen (readPulseWord k s) fun s1 => .next (s1.mapHost HostAgent.proceed)
  | .layOut base => .next ((s.layOut base).mapHost HostAgent.proceed)

/-- One step of the whole: a halted host is stuck (R100, R103); while the host awaits the consumer moves; a sleeping host is
woken (R98); else the host performs its next action. -/
def hostStep (s : State) : Host.Outcome State Fault Refusal :=
  if s.host.halted then .fault .hostHalted
  else match s.host.suspension with
    | .awaiting plan => awaitStep plan s
    | .sleeping _ => .next (s.mapHost HostAgent.wake)
    | .running =>
      match s.host.action with
      | none => .fault .programEnded
      | some l => lineStep l s

/-- The host about to run a program of one line that issues a CMD, with nothing in flight (assumption 4). -/
def State.placeCmd (cmd : Cmd) (s : State) : State :=
  { s with
    host := { s.host with
      halted := false, retrying := false, suspension := .running, script := some ⟨[.issue cmd], 0, 0⟩ }
    consumer := { s.consumer with channel := .idle } }

end Sys2Proof.Machine
end

