-- ==== Sys2Proof/Machine/Step.lean ====
section
/-! DEFINITION. One step of the machine, and how the host of the pipeline places an operation before it. -/

namespace Sys2Proof.Machine

/-- One step (spec/60_exceptions.md R96 to R100). -/
def step (s : State) : Host.Outcome State Fault Refusal := hostStep s

/-- The state in which the very next step issues the CMD whose low `nbits` bits are `w` (assumption 4). The host
holds 64-bit CMDs: that of a string of more than 64 bits, which `decodeBits` rejects, the low 64 are issued is a DESIGN CHOICE
(assumption 22). -/
def State.withFetchWord (s : State) (nbits w : Nat) : State := s.placeCmd (BitVec.ofNat 64 (w % 2 ^ nbits))

end Sys2Proof.Machine
end

