-- ==== Sys2Proof/Machine/Assembler.lean ====
section
/-! DEFINITION. The assembler notation of spec/30_encoding.md R54 to R56: lines with plain numbers and labels, the
expansion of the pseudo-instructions, the checks, and the host program they stand for. -/

namespace Sys2Proof.Machine

/-- A hue operand: a number or the host register `H` (R54). -/
inductive AsmHue where
  | num (n : Nat)
  | hostHue
  deriving DecidableEq, Repr

/-- A line of the notation. A label is a number here, in place of a name (assumption 18). -/
inductive AsmLine where
  | conv (hue : AsmHue) (sat val : Nat)
  | enc (r g b : Nat)
  | convenc (hue : AsmHue) (sat val : Nat)
  | rsvd
  | tx
  | sleepUs (n : Nat)
  | sleepMs (n : Nat)
  | hadv
  | label (l : Nat)
  | jmp (l : Nat)
  /-- `ENCHUE h` (R56). -/
  | enchue (h : AsmHue)
  /-- `CYCLE` (R56). -/
  | cycle
  deriving DecidableEq, Repr

/-- Why a line is refused. -/
inductive AsmReject where
  /-- An operand does not fit its field (R44). -/
  | operandOutOfRange
  /-- A jump to a label that stands nowhere (R55). -/
  | unknownLabel (l : Nat)
  /-- A label that stands twice. -/
  | labelTwice (l : Nat)
  deriving DecidableEq, Repr

/-- A hue operand fits 16 bits (R44). -/
def AsmHue.wf : AsmHue → Bool
  | .num n => decide (n < 65536)
  | .hostHue => true

/-- The operands of a line fit their fields (R44). -/
def AsmLine.wf : AsmLine → Bool
  | .conv hue sat val => hue.wf && decide (sat < 256) && decide (val < 256)
  | .enc r g b => decide (r < 256) && decide (g < 256) && decide (b < 256)
  | .convenc hue sat val => hue.wf && decide (sat < 256) && decide (val < 256)
  | .rsvd => true
  | .tx => true
  | .sleepUs _ => true
  | .sleepMs _ => true
  | .hadv => true
  | .label _ => true
  | .jmp _ => true
  | .enchue h => h.wf
  | .cycle => true

/-- The expansion of a pseudo-instruction; any other line is itself (R56). -/
def AsmLine.expand : AsmLine → List AsmLine
  | .conv hue sat val => [.conv hue sat val]
  | .enc r g b => [.enc r g b]
  | .convenc hue sat val => [.convenc hue sat val]
  | .rsvd => [.rsvd]
  | .tx => [.tx]
  | .sleepUs n => [.sleepUs n]
  | .sleepMs n => [.sleepMs n]
  | .hadv => [.hadv]
  | .label l => [.label l]
  | .jmp l => [.jmp l]
  | .enchue h => [.convenc h 255 255]
  | .cycle => [.convenc .hostHue 255 255, .tx, .sleepUs 280, .hadv, .sleepMs 10]

/-- The number of the program line after a label, counting from `pos`. -/
def labelPos (l : Nat) : List AsmLine → Nat → Option Nat
  | [], _ => none
  | .label m :: ls, pos => if m = l then some pos else labelPos l ls pos
  | _ :: ls, pos => labelPos l ls (pos + 1)

/-- The labels of a program, in order. -/
def asmLabels : List AsmLine → List Nat
  | [] => []
  | .label m :: ls => m :: asmLabels ls
  | _ :: ls => asmLabels ls

/-- An 8-bit operand. -/
def asmChan (n : Nat) : Chan := BitVec.ofNat 8 n

/-- The program line of an operation with a hue operand (R54). -/
def asmHueLine (op : HueOp) (hue : AsmHue) (sat val : Nat) : HostLine :=
  match hue with
  | .hostHue => .issueHue op (asmChan sat) (asmChan val)
  | .num n => .issue (hueCmd op (asmChan sat) (asmChan val) n)

/-- The program line of an expanded line; a label is no line of its own, and a pseudo-instruction has been expanded. -/
def AsmLine.emit (whole : List AsmLine) : AsmLine → Except AsmReject (List HostLine)
  | .conv hue sat val => .ok [asmHueLine .conv hue sat val]
  | .enc r g b => .ok [.issue (encode (.enc (asmChan r) (asmChan g) (asmChan b)))]
  | .convenc hue sat val => .ok [asmHueLine .convenc hue sat val]
  | .rsvd => .ok [.issue (encode .rsvd)]
  | .tx => .ok [.tx]
  | .sleepUs n => .ok [.sleepUs n]
  | .sleepMs n => .ok [.sleepMs n]
  | .hadv => .ok [.hadv]
  | .label _ => .ok []
  | .jmp l =>
    match labelPos l whole 0 with
    | some pos => .ok [.jmp pos]
    | none => .error (.unknownLabel l)
  | .enchue _ => .ok []
  | .cycle => .ok []

/-- Every line emitted in order, or the first rejection. The notation does not say what becomes of a number that does not
fit its field or of a jump to a label that stands nowhere; here the whole program is rejected (DESIGN CHOICE,
assumption 18). -/
def emitAll (whole : List AsmLine) : List AsmLine → Except AsmReject (List HostLine)
  | [] => .ok []
  | l :: ls =>
    if l.wf then
      match l.emit whole, emitAll whole ls with
      | .ok a, .ok b => .ok (a ++ b)
      | .error e, _ => .error e
      | .ok _, .error e => .error e
    else .error .operandOutOfRange

/-- The first label that stands twice. -/
def repeatedLabel : List Nat → Option Nat
  | [] => none
  | l :: ls => if ls.contains l then some l else repeatedLabel ls

/-- The host program a text of the notation stands for (R54 to R56). -/
def assemble (ls : List AsmLine) : Except AsmReject (List HostLine) :=
  match repeatedLabel (asmLabels ls) with
  | some l => .error (.labelTwice l)
  | none => emitAll (ls.flatMap AsmLine.expand) (ls.flatMap AsmLine.expand)

/-- The host at the first line of a program, the rest as after reset. No operation has been issued yet, so a frame repeated
before the first one starts at line 0 (DESIGN CHOICE, assumption 10). -/
def State.resetWith (lines : List HostLine) : State :=
  State.reset.mapHost fun h => { h with script := some ⟨lines, 0, 0⟩ }

end Sys2Proof.Machine
end

