-- ==== Sys2Proof/Safety.lean ====
section
/-! DEFINITION. The invariant of the machine, in the terms the statements use. -/

namespace Sys2Proof.Machine

/-- `H` is in 0..359 (spec/10_state.md R20). -/
abbrev State.hueInRange (s : State) : Prop := s.host.hue < 360

/-- Once settled, the outputs are `F` of the inputs: the block holds no state of its own (R12). -/
abbrev State.outputsAreF (s : State) : Prop := s.block.settled = true → s.block.out = blockF s.params s.block.inp

/-- The host is suspended in `awaitCompletion` only while a transmission is in flight (R22, R99). -/
def State.awaitHasTransmission (s : State) : Prop :=
  match s.host.suspension, s.consumer.channel with
  | .awaiting _, .idle => False
  | _, _ => True

/-- A halted host is suspended in nothing and has left the channel `idle` (R99, R100). -/
abbrev State.haltedLeavesIdle (s : State) : Prop :=
  s.host.halted = true → s.consumer.channel = .idle ∧ s.host.suspension = .running

/-- What a transmission has sent is no more than 25 words, none zero (R36); and one that started from settled outputs has
sent the words of the output array, in index order, while the outputs stay settled (R35, R110). -/
def State.sentInOrder (s : State) : Prop :=
  match s.consumer.channel with
  | .idle => True
  | .busy t =>
    t.sent.length ≤ 25 ∧ (∀ w ∈ t.sent, w ≠ 0) ∧
      (t.clean = true → s.block.settled = true ∧ t.sent = s.block.out.pw.toList.take t.sent.length)

/-- The host repeats a frame only under `FAULT_POLICY = retry` (R100). -/
abbrev State.retryOnlyUnderRetry (s : State) : Prop := s.host.retrying = true → s.params.faultPolicy = .retry

/-- A host in `awaitCompletion` is not in the reset delay of a repeated frame (R100), and in its loop it is at step 2 (R96). -/
abbrev State.awaitsInTransmit (s : State) : Prop :=
  ∀ plan, s.host.suspension = .awaiting plan →
    s.host.retrying = false ∧ (s.host.script = none → s.host.phase = .transmit)

/-- What every step keeps. -/
structure State.Inv (s : State) : Prop where
  hueInRange           : s.hueInRange
  outputsAreF          : s.outputsAreF
  awaitHasTransmission : s.awaitHasTransmission
  haltedLeavesIdle     : s.haltedLeavesIdle
  sentInOrder          : s.sentInOrder
  retryOnlyUnderRetry  : s.retryOnlyUnderRetry
  awaitsInTransmit     : s.awaitsInTransmit
  bufferCanonical      : s.consumer.buffer.wf
  framesNeverSendZero  : ∀ f ∈ s.consumer.frames, f.words.length ≤ 25 ∧ ∀ w ∈ f.words, w ≠ 0

end Sys2Proof.Machine
end

