-- ==== Sys2Proof/Certificates/Slice0/Obligations.lean ====
section
/-! DEFINITION. The statements for the provers. Rule numbers are those of spec/. -/

open Sys2Proof Sys2Proof.Machine

/-! ### Decoding and encoding -/

/-- R43: the decode is total, by `op` alone, each operand whole from its bits; fields an operation does not read have no
effect on what it does. -/
def Obligations.DecodeSelectsOperationByOp : Prop :=
  (∀ w : Cmd,
    (w.toNat % 4 = 0 → decode w =
      .conv (BitVec.ofNat 16 (w.toNat / 2 ^ 24)) (BitVec.ofNat 8 (w.toNat / 2 ^ 16)) (BitVec.ofNat 8 (w.toNat / 2 ^ 8))) ∧
    (w.toNat % 4 = 1 → decode w =
      .enc (BitVec.ofNat 8 (w.toNat / 2 ^ 48)) (BitVec.ofNat 8 (w.toNat / 2 ^ 56)) (BitVec.ofNat 8 (w.toNat / 2 ^ 40))) ∧
    (w.toNat % 4 = 2 → decode w =
      .convenc (BitVec.ofNat 16 (w.toNat / 2 ^ 24)) (BitVec.ofNat 8 (w.toNat / 2 ^ 16)) (BitVec.ofNat 8 (w.toNat / 2 ^ 8))) ∧
    (w.toNat % 4 = 3 → decode w = .rsvd)) ∧
  ∀ (p : Params) (b : InBundle) (hue : Hue) (sat val r g bl : Chan),
    ((b.op = 0 ∨ b.op = 2) → blockF p { b with rIn := r, gIn := g, bIn := bl } = blockF p b) ∧
    (b.op = 1 → blockF p { b with hueIn := hue, satIn := sat, valIn := val } = blockF p b) ∧
    (b.op = 3 → blockF p ⟨b.op, hue, sat, val, r, g, bl⟩ = blockF p b) ∧
    (b.op = 0 → blockF p b = ⟨hsvToRgb b.hueIn b.satIn b.valIn, Vector.replicate 25 0, false⟩) ∧
    (b.op = 1 → blockF p b = ⟨⟨b.rIn, b.gIn, b.bIn⟩, encodeRgb p ⟨b.rIn, b.gIn, b.bIn⟩, false⟩) ∧
    (b.op = 2 → blockF p b =
      ⟨hsvToRgb b.hueIn b.satIn b.valIn, encodeRgb p (hsvToRgb b.hueIn b.satIn b.valIn), false⟩) ∧
    (b.op = 3 → blockF p b = ⟨⟨0, 0, 0⟩, Vector.replicate 25 0, true⟩)

/-- R45: two CMDs that differ in bits 7:2 only are the same operation and the same step of the host; nothing traps. -/
def Obligations.UnconnectedBitsAreIgnored : Prop :=
  ∀ w w' : Cmd, (∀ i, i < 2 ∨ 8 ≤ i → w.getLsbD i = w'.getLsbD i) →
    decode w = decode w' ∧ InBundle.ofCmd w = InBundle.ofCmd w' ∧ ∀ s, issue w s = issue w' s

/-- Decoding an encoded operation gives it back, for every operation and every operand (R42 to R44, R54). -/
def Obligations.DecodeEncodeRoundTrip : Prop := ∀ i : Instr, decode (encode i) = i

/-- Encoding what a CMD decodes to clears exactly the bits the opcode table calls ignored. -/
def Obligations.EncodeDecodeClearsIgnoredBits : Prop :=
  ∀ w : Cmd,
    ((w.toNat % 4 = 0 ∨ w.toNat % 4 = 2) → encode (decode w) = w &&& 0x000000FFFFFFFF03#64) ∧
    (w.toNat % 4 = 1 → encode (decode w) = w &&& 0xFFFFFF0000000003#64) ∧
    (w.toNat % 4 = 3 → encode (decode w) = 3#64)

/-- The CMDs of the examples of R57, R72, R73 and R53 decode to the operations named there. -/
def Obligations.ExampleWordsDecode : Prop :=
  decode 0x000000001EFFFF00#64 = .conv 30 255 255 ∧ decode 0x00FF000000000001#64 = .enc 255 0 0 ∧
    decode 0x0000000000FFFF02#64 = .convenc 0 255 255 ∧ decode 0x0000000000000003#64 = .rsvd

/-! ### The converter -/

/-- R58 and R65: the three channels as numbers, by region. -/
def Obligations.HsvToRgbIsTheStatedFunction : Prop :=
  ∀ (hue : Hue) (sat val : Chan),
    let s := sat.toNat
    let v := val.toNat
    let h := hue.toNat % 360
    let region := h / 60
    let rem := (h - region * 60) * 6
    let p := v * (255 - s) / 255
    let q := v * (255 - s * rem / 360) / 255
    let t := v * (255 - s * (360 - rem) / 360) / 255
    let c := hsvToRgb hue sat val
    region ≤ 5 ∧
    (region = 0 → c.r.toNat = v ∧ c.g.toNat = t ∧ c.b.toNat = p) ∧
    (region = 1 → c.r.toNat = q ∧ c.g.toNat = v ∧ c.b.toNat = p) ∧
    (region = 2 → c.r.toNat = p ∧ c.g.toNat = v ∧ c.b.toNat = t) ∧
    (region = 3 → c.r.toNat = p ∧ c.g.toNat = q ∧ c.b.toNat = v) ∧
    (region = 4 → c.r.toNat = t ∧ c.g.toNat = p ∧ c.b.toNat = v) ∧
    (region = 5 → c.r.toNat = v ∧ c.g.toNat = p ∧ c.b.toNat = q)

/-- R59: the hue is reduced modulo 360 before use, for every 16-bit hue; 360 is 0. -/
def Obligations.HueIsTakenModulo360 : Prop :=
  (∀ hue : Hue, hueNorm hue.toNat = hue.toNat % 360 ∧ hueNorm hue.toNat ≤ 359) ∧
  (∀ (hue : Hue) (s v : Chan), hsvToRgb hue s v = hsvToRgb (BitVec.ofNat 16 (hue.toNat % 360)) s v) ∧
  ∀ s v : Chan, hsvToRgb 360 s v = hsvToRgb 0 s v

/-- R60 and R61: the region and the remainder of a reduced hue. -/
def Obligations.RegionAndRemainderOfHue : Prop :=
  ∀ h < 360,
    hueRegion h = h / 60 ∧ hueRegion h ≤ 5 ∧ hueRegion h * 60 ≤ h ∧ h ≤ hueRegion h * 60 + 59 ∧
    hueRem h = (h - hueRegion h * 60) * 6 ∧ h - hueRegion h * 60 ≤ 59 ∧ hueRem h % 6 = 0 ∧ hueRem h ≤ 354

/-- R62, R63 and R64: the three levels, and the ranges of the factors in them. -/
def Obligations.LevelsAndTheirFactors : Prop :=
  ∀ s v hue, s ≤ 255 → v ≤ 255 → hue < 360 →
    levelP s v = (v * (255 - s)) / 255 ∧
    levelQ s v (hueRem hue) = (v * (255 - (s * hueRem hue) / 360)) / 255 ∧
    levelT s v (hueRem hue) = (v * (255 - (s * (360 - hueRem hue)) / 360)) / 255 ∧
    (s * hueRem hue) / 360 ≤ 250 ∧ 5 ≤ 255 - (s * hueRem hue) / 360 ∧
    6 ≤ 360 - hueRem hue ∧ (s * (360 - hueRem hue)) / 360 ≤ 255 ∧
    (hueRem hue = 0 → levelT s v (hueRem hue) = levelP s v)

/-- R69: no level and no channel exceeds the value, and some channel equals it. -/
def Obligations.ChannelsNeverExceedValue : Prop :=
  ∀ (hue : Hue) (s v : Chan),
    let rem := hueRem (hueNorm hue.toNat)
    let c := hsvToRgb hue s v
    levelP s.toNat v.toNat ≤ v.toNat ∧ levelQ s.toNat v.toNat rem ≤ v.toNat ∧ levelT s.toNat v.toNat rem ≤ v.toNat ∧
    max c.r.toNat (max c.g.toNat c.b.toNat) = v.toNat ∧ (c.r = v ∨ c.g = v ∨ c.b = v)

/-- R70: the properties at full saturation and value. -/
def Obligations.FullSaturationAndValueProperties : Prop :=
  (∀ hue : Hue, let c := hsvToRgb hue 255 255
    (c.r = 255 ∨ c.g = 255 ∨ c.b = 255) ∧
    levelP 255 255 = 0 ∧
    levelT 255 255 (hueRem (hueNorm hue.toNat)) = 255 - (255 * (360 - hueRem (hueNorm hue.toNat))) / 360 ∧
    levelQ 255 255 (hueRem (hueNorm hue.toNat)) = 255 - (255 * hueRem (hueNorm hue.toNat)) / 360) ∧
  hsvToRgb 0 255 255 = ⟨255, 0, 0⟩ ∧ hsvToRgb 120 255 255 = ⟨0, 255, 0⟩ ∧ hsvToRgb 240 255 255 = ⟨0, 0, 255⟩ ∧
  hsvToRgb 60 255 255 = ⟨255, 255, 0⟩ ∧ hsvToRgb 180 255 255 = ⟨0, 255, 255⟩ ∧ hsvToRgb 300 255 255 = ⟨255, 0, 255⟩

/-! ### The pulse words and the encoder -/

/-- R47: the value of a pulse word, its four fields in their places, and no data word with a duration of 0 where the four
tick constants are in 1..32767. -/
def Obligations.PulseWordAssembly : Prop :=
  (∀ (p : Params) (bit : Bool), p.ticksInRange = true → pwDur0 (bitWord p bit) ≠ 0 ∧ pwDur1 (bitWord p bit) ≠ 0) ∧
  ∀ dh dl : Ticks,
    (pword dh dl).toNat = dh.toNat + 32768 + dl.toNat * 65536 ∧
    (pword dh dl).extractLsb' 0 15 = dh ∧ (pword dh dl).getLsbD 15 = true ∧
    (pword dh dl).extractLsb' 16 15 = dl ∧ (pword dh dl).getLsbD 31 = false

/-- R48: the two data words at the documented clock. -/
def Obligations.DataWordsAtDocumentedClock : Prop :=
  bitWord Params.nominal true = 0x00248040#32 ∧ bitWord Params.nominal false = 0x00448020#32 ∧
  pwDur0 0x00248040#32 = 64 ∧ pwDur1 0x00248040#32 = 36 ∧ pwDur0 0x00448020#32 = 32 ∧ pwDur1 0x00448020#32 = 68 ∧
  pwLvl0 0x00248040#32 = true ∧ pwLvl1 0x00248040#32 = false ∧ pwLvl0 0x00448020#32 = true ∧ pwLvl1 0x00448020#32 = false

/-- R74: word `k` of an encoded color, for every build, and the two data words at the documented clock. -/
def Obligations.EncodedSequenceWordByWord : Prop :=
  ∀ (p : Params) (c : Rgb),
    let grb := c.g.toNat * 65536 + c.r.toNat * 256 + c.b.toNat
    (∀ k (h : k < 24), (encodeRgb p c)[k] =
      if grb / 2 ^ (23 - k) % 2 = 1 then pword p.t1h p.t1l else pword p.t0h p.t0l) ∧
    (encodeRgb p c)[24] = 0 ∧ pword 64 36 = 0x00248040#32 ∧ pword 32 68 = 0x00448020#32

/-- R51: green in words 0 to 7, red in 8 to 15, blue in 16 to 23, most significant bit first. -/
def Obligations.WordsCarryGreenRedBlue : Prop :=
  ∀ (p : Params) (c : Rgb) (k : Nat) (h : k < 8),
    (encodeRgb p c)[k] = bitWord p (c.g.getLsbD (7 - k)) ∧
    (encodeRgb p c)[8 + k] = bitWord p (c.r.getLsbD (7 - k)) ∧
    (encodeRgb p c)[16 + k] = bitWord p (c.b.getLsbD (7 - k))

/-- R82 and R83: the shape of every encoded sequence at the documented clock. -/
def Obligations.EncodedSequenceShape : Prop :=
  ∀ c : Rgb, (encodeRgb Params.nominal c)[24] = 0 ∧
    ∀ k (h : k < 24), let w := (encodeRgb Params.nominal c)[k]
      (w.toNat % 2 ^ 15 = 64 ∨ w.toNat % 2 ^ 15 = 32) ∧ w.getLsbD 15 = true ∧
      (w.toNat / 2 ^ 16 % 2 ^ 15 = 36 ∨ w.toNat / 2 ^ 16 % 2 ^ 15 = 68) ∧ w.getLsbD 31 = false ∧
      32768 ≤ w.toNat ∧ w ≠ 0

/-- R81: reading an encoded sequence back gives the packed color, for every build whose two high durations differ. -/
def Obligations.SequenceRoundTrip : Prop :=
  Params.nominal.t1h = 64 ∧ Params.nominal.t1h ≠ Params.nominal.t0h ∧
  ∀ (p : Params) (c : Rgb), p.t1h ≠ p.t0h →
    decodeSeq p (encodeRgb p c) = c.g.toNat * 65536 + c.r.toNat * 256 + c.b.toNat

/-- R79 and R80: what the data words put on the line, and how long a frame lasts at the documented clock. The level of the
idle line is computed (assumption 21). -/
def Obligations.DataWordsOnTheLine : Prop :=
  (∀ (p : Params) (bit : Bool), wordPulses (bitWord p bit) =
    [⟨true, if bit then p.t1h.toNat else p.t0h.toNat⟩, ⟨false, if bit then p.t1l.toNat else p.t0l.toNat⟩]) ∧
  (∀ bit, ((wordPulses (bitWord Params.nominal bit)).map Pulse.ticks).sum = 100) ∧
  (∀ (c : Rgb) (r : TxResult),
    (((⟨(encodeRgb Params.nominal c).toList.take 24, r⟩ : Frame).pulses).map Pulse.ticks).sum = 2400) ∧
  ∀ s : State, s.consumer.channel = .idle → s.lineLevel = s.params.idleLevel

/-! ### The four operations: result, completion and frame -/

/-- R57: CONV, from its encoding to the whole next state. -/
def Obligations.ConvRunsAndAnswers : Prop :=
  (∀ w : Cmd, Cmd.op w = 0 → decode w = .conv (Cmd.hue w) (Cmd.sat w) (Cmd.val w)) ∧
  (∀ (hue : Hue) (sat val : Chan) (s : State),
    exec (.conv hue sat val) s =
      .next { s with block := { inp := s.block.inp, out := ⟨hsvToRgb hue sat val, Vector.replicate 25 0, false⟩, settled := true } }) ∧
  (∀ (hue : Hue) (v : Chan), hsvToRgb hue 0 v = ⟨v, v, v⟩) ∧ (∀ (hue : Hue) (s : Chan), hsvToRgb hue s 0 = ⟨0, 0, 0⟩) ∧
  (∀ s v : Chan, hsvToRgb 360 s v = hsvToRgb 0 s v ∧ hsvToRgb 65535 s v = hsvToRgb 15 s v) ∧
  hsvToRgb 30 255 255 = ⟨255, 128, 0⟩ ∧ hsvToRgb 359 1 255 = ⟨255, 254, 255⟩

/-- R72: ENC, from its encoding to the whole next state. -/
def Obligations.EncRunsAndAnswers : Prop :=
  (∀ w : Cmd, Cmd.op w = 1 → decode w = .enc (Cmd.r w) (Cmd.g w) (Cmd.b w)) ∧
  (∀ (r g b : Chan) (s : State),
    exec (.enc r g b) s =
      .next { s with block := { inp := s.block.inp, out := ⟨⟨r, g, b⟩, encodeRgb s.params ⟨r, g, b⟩, false⟩, settled := true } }) ∧
  (∀ (p : Params) (k : Nat) (h : k < 24),
    (encodeRgb p ⟨0, 0, 0⟩)[k] = bitWord p false ∧ (encodeRgb p ⟨255, 255, 255⟩)[k] = bitWord p true ∧
    (encodeRgb p ⟨255, 0, 0⟩)[k] = bitWord p (decide (8 ≤ k ∧ k < 16))) ∧
  ∀ p : Params, (encodeRgb p ⟨0, 0, 0⟩)[24] = 0 ∧ (encodeRgb p ⟨255, 255, 255⟩)[24] = 0 ∧ (encodeRgb p ⟨255, 0, 0⟩)[24] = 0

/-- R73: CONVENC, from its encoding to the whole next state; CONV followed by ENC of its color gives the same outputs. -/
def Obligations.ConvencRunsAndAnswers : Prop :=
  (∀ w : Cmd, Cmd.op w = 2 → decode w = .convenc (Cmd.hue w) (Cmd.sat w) (Cmd.val w)) ∧
  (∀ (hue : Hue) (sat val : Chan) (s : State),
    exec (.convenc hue sat val) s =
      .next { s with block := { inp := s.block.inp, out := ⟨hsvToRgb hue sat val, encodeRgb s.params (hsvToRgb hue sat val), false⟩, settled := true } }) ∧
  (∀ (hue : Hue) (sat val : Chan) (s : State), ∃ t u v,
    exec (.conv hue sat val) s = .next t ∧
    exec (.enc t.block.out.rgb.r t.block.out.rgb.g t.block.out.rgb.b) t = .next u ∧
    exec (.convenc hue sat val) s = .next v ∧ u.block.out = v.block.out) ∧
  ∀ p : Params, blockF p (InBundle.ofCmd 0x0000000000FFFF02#64) = blockF p (InBundle.ofCmd 0x00FF000000000001#64)

/-- R53: the reserved operation, from its encoding to the whole next state; no exception. -/
def Obligations.ReservedOperationAnswersZero : Prop :=
  (∀ w : Cmd, Cmd.op w = 3 → decode w = .rsvd) ∧
  ∀ s : State, exec .rsvd s =
    .next { s with block := { inp := s.block.inp, out := ⟨⟨0, 0, 0⟩, Vector.replicate 25 0, true⟩, settled := true } }

/-- R27 and R84: every operation completes in every state, drives the output bundle only, and leaves the inputs, the
host, the parameters, the channel and every byte of the buffer as they were. -/
def Obligations.OperationsDriveOnlyTheOutputs : Prop :=
  ∀ (i : Instr) (s : State), ∃ t, exec i s = .next t ∧
    t.block.inp = s.block.inp ∧ t.block.settled = true ∧ t.params = s.params ∧ t.host = s.host ∧
    t.consumer = s.consumer ∧ t.draws = s.draws ∧ ∀ a, t.consumer.buffer.read a = s.consumer.buffer.read a

/-- R17: `op_err` is 1 exactly for the reserved operation, and is not sticky. -/
def Obligations.OpErrExactlyForReserved : Prop :=
  ∀ (w : Cmd) (s : State), ∃ t, exec (decode w) s = .next t ∧
    (t.block.out.opErr = true ↔ w.toNat % 4 = 3) ∧
    ∀ w' : Cmd, w'.toNat % 4 ≠ 3 → ∃ u, exec (decode w') t = .next u ∧ u.block.out.opErr = false

/-- R12 and R113: what an operation answers depends on its operands and the build alone, not on anything earlier. -/
def Obligations.AnswersDoNotDependOnState : Prop :=
  ∀ (i : Instr) (s s' : State), s.params = s'.params →
    ∃ t t', exec i s = .next t ∧ exec i s' = .next t' ∧ t.block.out = t'.block.out

/-! ### Steps that issue an operation -/

/-- A step of a host about to issue a CMD is `exec` of the decoded operation at the state with the inputs driven, after
which the host goes on; `withFetchWord` makes the next step issue exactly the CMD placed. The model's choices in it: one
issue is one step (assumption 3), how a program is placed (assumption 4), that the host goes on after issuing the reserved
operation, marked in `afterIssue` (assumption 6), where a program's frame starts, kept in `afterIssue` (assumption 10), and
that driving what already stands on the inputs is no change, so that such an issue runs on a `busy` channel too (assumption
19). That an issue keeps `readData` and the buffer, the consumer reading by index and laying out at lines of the program
only, is assumption 23. -/
def Obligations.StepRunsDecodedOperation : Prop :=
  (∀ (s : State) (w : Cmd), s.nextCmd = some w → (InBundle.ofCmd w = s.block.inp ∨ s.consumer.channel = .idle) →
    ∃ t, exec (decode w) (if InBundle.ofCmd w = s.block.inp then s else s.changeInputs (InBundle.ofCmd w)) = .next t ∧
      step s = .next (t.mapHost (HostAgent.afterIssue w))) ∧
  ∀ (s : State) (w : Cmd), (s.withFetchWord 64 w.toNat).nextCmd = some w ∧
    (s.withFetchWord 64 w.toNat).consumer.channel = .idle

/-- R110: a change of the inputs while the channel is `busy` is a fault of the program, however the host makes it. -/
def Obligations.InputChangeWhileBusyFaults : Prop :=
  ∀ (s : State) (t : Transmission) (w : Cmd), s.consumer.channel = .busy t → InBundle.ofCmd w ≠ s.block.inp →
    drive (InBundle.ofCmd w) s = .fault .inputChangedWhileBusy ∧
    (s.nextCmd = some w → step s = .fault .inputChangedWhileBusy) ∧
    (s.host.halted = false → s.host.suspension = .running → s.host.action = some (.drive w) →
      step s = .fault .inputChangedWhileBusy)

/-- Issuing the reserved operation: the block's outputs are zero with `op_err = 1`, and the program is marked at fault (R53,
I7; that the run goes on is the model's choice, assumption 6, and that an issue is one step, assumption 3). That an issue
keeps `readData` and the buffer, the consumer reading by index and laying out at lines of the program only, is assumption
23. -/
def Obligations.ReservedIssueMarksTheProgram : Prop :=
  ∀ (s : State) (w : Cmd), s.nextCmd = some w → w.toNat % 4 = 3 → s.consumer.channel = .idle →
    ∃ t, step s = .next t ∧ t.host.atFault = true ∧ t.block.inp = InBundle.ofCmd w ∧ t.block.settled = true ∧
      t.block.out = ⟨⟨0, 0, 0⟩, Vector.replicate 25 0, true⟩ ∧ t.consumer = s.consumer ∧ t.host.hue = s.host.hue

/-- R109 and R105: a change of the inputs unsettles the outputs, a word read before they settle is a fresh draw, and waiting
out `T_PD` gives `F` of the inputs. Where the outputs have not settled, that the ports stay as they are is the model's
choice (assumptions 1 and 26). That settling keeps `readData` and the buffer, the consumer reading by index and laying out
at lines of the program only, is assumption 23. -/
def Obligations.OutputsAreDrawsUntilSettled : Prop :=
  (∀ (s : State) (b : InBundle), b ≠ s.block.inp → s.consumer.channel = .idle →
    ∃ t, drive b s = .next t ∧ t.block.inp = b ∧ t.block.settled = false ∧ t.host = s.host ∧ t.consumer = s.consumer) ∧
  (∀ (s : State) (k : Nat), s.block.settled = false → k < 25 →
    ∃ t, readPulseWord k s = .next t ∧ t.consumer.readData = Config.drawWord s.draws k ∧ t.draws = s.draws + 1 ∧
      t.block = s.block) ∧
  ∀ s : State, s.host.halted = false → s.host.suspension = .running → s.host.action = some .settle →
    ∃ t, step s = .next t ∧ t.block = ⟨s.block.inp, blockF s.params s.block.inp, true⟩ ∧ t.consumer = s.consumer

/-! ### The consumer -/

/-- R34: the consumer's read of word `k` is `pw[k]`; it has no side effect on the block, and a repeated read in any order
gives the same value. -/
def Obligations.ConsumerReadsAreIdempotent : Prop :=
  ∀ (s : State) (j k : Nat) (hj : j < 25) (hk : k < 25), s.block.settled = true →
    ∃ t u, readPulseWord k s = .next t ∧ t = { s with consumer := { s.consumer with readData := s.block.out.pw[k] } } ∧
      readPulseWord j t = .next u ∧ u.consumer.readData = s.block.out.pw[j] ∧ u.block = s.block ∧
      readPulseWord k u = .next t

/-- R33: a request for index 25 or above is refused, also as a step; that the read is a line of the host's program is the
model's choice (assumption 23). -/
def Obligations.ReadBeyondTheSequenceIsRefused : Prop :=
  ∀ (s : State) (k : Nat), 25 ≤ k → readPulseWord k s = .refused (.noSuchPulseWord k) ∧
    (s.host.halted = false → s.host.suspension = .running → s.host.action = some (.readWord k) →
      step s = .refused (.noSuchPulseWord k))

/-- A laid-out sequence, byte by byte; every byte outside its 100 bytes reads as before. The little-endian order is R29's;
the big-endian one is the model's choice (assumption 20). From outputs that have not settled, each word laid is a draw
(R109; assumption 1). That the laying out is a line of the host's program is the model's choice (assumption 23). Where the
outputs have not settled, that the ports stay as they are is the model's choice (assumptions 1 and 26). The buffer has no
bounds (assumption 13). -/
def Obligations.LaidOutSequenceBytes : Prop :=
  ∀ (s : State) (base : Nat),
    (∀ k i (hk : k < 25), i < 4 →
      let w := if s.block.settled then s.block.out.pw[k] else Config.drawWord s.draws k
      (s.layOut base).consumer.buffer.read (base + 4 * k + i) =
        some (match s.params.byteOrder with
          | .little => BitVec.ofNat 8 (w.toNat / 2 ^ (8 * i))
          | .big => BitVec.ofNat 8 (w.toNat / 2 ^ (8 * (3 - i))))) ∧
    (∀ a, a < base ∨ base + 100 ≤ a → (s.layOut base).consumer.buffer.read a = s.consumer.buffer.read a) ∧
    (s.layOut base).block = s.block ∧ (s.layOut base).host = s.host ∧
    (s.layOut base).consumer.channel = s.consumer.channel ∧
    (s.layOut base).draws = (if s.block.settled then s.draws else s.draws + 1) ∧
    (s.host.halted = false → s.host.suspension = .running → s.host.action = some (.layOut base) →
      step s = .next ((s.layOut base).mapHost HostAgent.proceed))

/-- R111: `transmit` on a `busy` channel is a fault of the program; on an `idle` one it makes the channel `busy`. Where the
outputs have not settled, that the ports stay as they are is the model's choice (assumptions 1 and 26). That the
transmission remembers whether they had settled is assumption 8. That `TX` enters its await in the same step is assumption
3. -/
def Obligations.TransmitNeedsAnIdleChannel : Prop :=
  ∀ s : State, s.host.halted = false → s.host.suspension = .running →
    (s.host.action = some .tx ∨ s.host.action = some .transmit) →
    (∀ t, s.consumer.channel = .busy t → step s = .fault .transmitWhileBusy) ∧
    (s.consumer.channel = .idle → ∃ u, step s = .next u ∧ u.consumer.channel = .busy ⟨[], s.block.settled⟩ ∧
      u.block = s.block ∧ u.host.hue = s.host.hue)

/-- R35 and R36: while the host awaits and no fault is due, the next word in index order is sent, and a zero word ends the
transmission with nothing more sent. The model's choices: the consumer moves only then (assumption 8), and a transmission
that sent nothing is on record too (assumption 24). A fault drawn for later than the words reach is reported at their end by
assumption 7. That sending a word keeps `readData` and the buffer, the consumer reading by index and laying out at lines of
the program only, is assumption 23. -/
def Obligations.ConsumerSendsInIndexOrder : Prop :=
  ∀ (s : State) (plan : AwaitDraw) (sent : List PulseWord) (h : sent.length < 25),
    s.host.halted = false → s.host.suspension = .awaiting plan → s.block.settled = true →
    s.consumer.channel = .busy ⟨sent, true⟩ → plan.cutsAt sent.length = false →
    (s.block.out.pw[sent.length] ≠ 0 → step s =
      .next { s with consumer := { s.consumer with channel := .busy ⟨sent ++ [s.block.out.pw[sent.length]], true⟩ } }) ∧
    (s.block.out.pw[sent.length] = 0 → ∃ t, step s = .next t ∧ t.consumer.channel = .idle ∧
      t.consumer.frames = s.consumer.frames ++ [⟨sent, plan.result⟩] ∧ t.block = s.block)

/-- R36: an encoded sequence is sent as its 24 data words and ends at index 24, in 25 steps of the consumer; an all-zero
sequence sends nothing. The model's choices: the steps of the consumer (assumption 8), and the frame without words on record
(assumption 24). The outcome fixed when the await begins is assumption 7. -/
def Obligations.TransmissionSendsTheDataWords : Prop :=
  ∀ s : State, s.host.halted = false → s.host.suspension = .awaiting .ok → s.block.settled = true →
    s.consumer.channel = .busy ⟨[], true⟩ →
    (∀ c, s.block.out.pw = encodeRgb s.params c → ∃ t, core.run 25 s = .next t ∧ t.consumer.channel = .idle ∧
      t.consumer.frames = s.consumer.frames ++ [⟨(encodeRgb s.params c).toList.take 24, .ok⟩] ∧
      t.block = s.block ∧ t.host = s.host.proceed) ∧
    (s.block.out.pw = Vector.replicate 25 0 → ∃ t, core.run 1 s = .next t ∧ t.consumer.channel = .idle ∧
      t.consumer.frames = s.consumer.frames ++ [⟨[], .ok⟩])

/-- R100: whatever outcome the environment has in store for an `awaitCompletion`, the consumer takes it, so both outcomes
are admitted at every transmission; with none in store the outcome is a free value (assumption 7). Where the outputs have
not settled, that the ports stay as they are is the model's choice (assumptions 1 and 26). That `TX` enters its await in the
same step is assumption 3. -/
def Obligations.EveryAwaitOutcomeIsAdmitted : Prop :=
  ∀ (s : State) (d : AwaitDraw) (ds : List AwaitDraw), s.host.halted = false → s.host.suspension = .running →
    s.consumer.awaitDraws = d :: ds →
    ((s.host.action = some .tx ∧ s.consumer.channel = .idle) ∨
      (s.host.action = some .await ∧ s.consumer.channel ≠ .idle)) →
    ∃ t, step s = .next t ∧ t.host.suspension = .awaiting d ∧ t.consumer.awaitDraws = ds ∧ t.block = s.block

/-! ### The host -/

/-- R97: the hue advance, with 359 going to 0, and nothing else of the block or the consumer. Where the outputs have not
settled, that the ports stay as they are is the model's choice (assumptions 1 and 26). That the advance keeps `readData` and
the buffer, the consumer reading by index and laying out at lines of the program only, is assumption 23. -/
def Obligations.HueAdvanceWraps : Prop :=
  ∀ s : State, s.host.halted = false → s.host.suspension = .running → s.host.action = some .hadv → s.host.hue < 360 →
    ∃ t, step s = .next t ∧ t.host.hue = (s.host.hue + 1) % 360 ∧ t.host.hue < 360 ∧
      (s.host.hue = 359 → t.host.hue = 0) ∧ (s.host.hue < 359 → t.host.hue = s.host.hue + 1) ∧
      t.block = s.block ∧ t.consumer = s.consumer ∧ t.params = s.params

/-- R96: the five steps of the loop, each with its action and the step that follows it. What one step is, is the model's
choice (assumptions 3 and 15). Where the outputs have not settled, that the ports stay as they are is the model's choice
(assumptions 1 and 26). That a step of the host keeps `readData` and the buffer, the consumer reading by index and laying
out at lines of the program only, is assumption 23. What a transmission remembers is assumption 8, the outcome fixed when
the await begins assumption 7. -/
def Obligations.HostLoopFiveSteps : Prop :=
  ∀ s : State, s.host.halted = false → s.host.suspension = .running → s.host.script = none → s.host.retrying = false →
    (s.host.phase = .compute → s.consumer.channel = .idle → ∃ t, step s = .next t ∧
      t.block = ⟨⟨2, BitVec.ofNat 16 s.host.hue, 255, 255, 0, 0, 0⟩,
        ⟨hsvToRgb (BitVec.ofNat 16 s.host.hue) 255 255, encodeRgb s.params (hsvToRgb (BitVec.ofNat 16 s.host.hue) 255 255), false⟩, true⟩ ∧
      t.host = { s.host with phase := .transmit } ∧ t.consumer = s.consumer) ∧
    (s.host.phase = .transmit → s.consumer.channel = .idle → ∃ t plan, step s = .next t ∧
      t.host = { s.host with suspension := .awaiting plan } ∧
      t.consumer.channel = .busy ⟨[], s.block.settled⟩ ∧ t.block = s.block) ∧
    (s.host.phase = .resetDelay → ∃ t, step s = .next t ∧ t = { s with host := { s.host with suspension := .sleeping (.us 280) } } ∧
      step t = .next { s with host := { s.host with phase := .advance } }) ∧
    (s.host.phase = .advance →
      step s = .next { s with host := { s.host with hue := (s.host.hue + 1) % 360, phase := .cosmeticDelay } }) ∧
    (s.host.phase = .cosmeticDelay → ∃ t, step s = .next t ∧ t = { s with host := { s.host with suspension := .sleeping (.ms 10) } } ∧
      step t = .next { s with host := { s.host with phase := .compute } })

/-- R98: a sleep suspends the host for the duration asked and the host goes on after it, with nothing else changed. Where
the outputs have not settled, that the ports stay as they are is the model's choice (assumptions 1 and 26). That a sleep
keeps `readData` and the buffer, the consumer reading by index and laying out at lines of the program only, is assumption
23. -/
def Obligations.SleepSuspendsThenResumes : Prop :=
  ∀ (s : State) (n : Nat), s.host.halted = false → s.host.suspension = .running →
    (s.host.action = some (.sleepUs n) → ∃ t, step s = .next t ∧ t = { s with host := { s.host with suspension := .sleeping (.us n) } } ∧
      ∃ u, step t = .next u ∧ u.host.suspension = .running ∧ u.host.hue = s.host.hue ∧ u.block = s.block ∧ u.consumer = s.consumer) ∧
    (s.host.action = some (.sleepMs n) → ∃ t, step s = .next t ∧ t = { s with host := { s.host with suspension := .sleeping (.ms n) } } ∧
      ∃ u, step t = .next u ∧ u.host.suspension = .running ∧ u.host.hue = s.host.hue ∧ u.block = s.block ∧ u.consumer = s.consumer)

/-- R100 and R101: a TransmissionFault that is due, or that comes where the words end, leaves the channel `idle` and `H` as
it was. Under `halt` the host has no further step. Under `retry` it goes through the reset delay and back, without
advancing, to step 1 of the loop, or to the line where the frame of a program starts (the model's choice, assumption 10).
The fault goes on record also where no word was sent (assumption 24). The fault comes between whole words only (assumption
25). Where the outputs have not settled, that the ports stay as they are is the model's choice (assumptions 1 and 26). The
two steps of the sleep are assumption 15. That the sleep keeps `readData` and the buffer, the consumer reading by index and
laying out at lines of the program only, is assumption 23. -/
def Obligations.TransmissionFaultHaltsOrRetries : Prop :=
  ∀ (s : State) (cause cut : Nat) (x : Transmission), s.host.halted = false →
    s.host.suspension = .awaiting (.fault cause cut) → s.consumer.channel = .busy x →
    (cut ≤ x.sent.length ∨ 25 ≤ x.sent.length ∨
      ∃ h : x.sent.length < 25, (s.sampleWord x.clean ⟨x.sent.length, h⟩).1 = 0) →
    (s.params.faultPolicy = .halt → ∃ t, step s = .next t ∧ t.host.halted = true ∧ t.host.hue = s.host.hue ∧
      t.consumer.channel = .idle ∧ t.consumer.frames = s.consumer.frames ++ [⟨x.sent, .fault cause⟩] ∧
      t.block = s.block ∧ step t = .fault .hostHalted) ∧
    (s.params.faultPolicy = .retry → ∃ t u v,
      step s = .next t ∧ t.host.halted = false ∧ t.host.hue = s.host.hue ∧ t.consumer.channel = .idle ∧
      t.consumer.frames = s.consumer.frames ++ [⟨x.sent, .fault cause⟩] ∧ t.block = s.block ∧
      (s.host.script = none → t.host.phase = .resetDelay) ∧
      step t = .next u ∧ u.host.suspension = .sleeping (.us 280) ∧
      step u = .next v ∧ v.host.suspension = .running ∧ v.host.retrying = false ∧ v.host.halted = false ∧
      v.host.hue = s.host.hue ∧ v.consumer = t.consumer ∧ v.block = s.block ∧
      (s.host.script = none → v.host.script = none ∧ v.host.phase = .compute) ∧
      ∀ p, s.host.script = some p → v.host.script = some { p with pos := p.frameStart })

/-- R100 and R103: a host with `halted = 1` has no further step. -/
def Obligations.HaltedHostHasNoStep : Prop := ∀ s : State, s.host.halted = true → step s = .fault .hostHalted

/-- The machine after reset (R24, R105, R106), and its first step (R96 step 1). That from reset the host runs its loop is the
model's choice (assumption 4), and so is that driving the inputs, waiting out `T_PD` and going on are one step
(assumption 3). -/
def Obligations.ResetState : Prop :=
  State.reset.host.hue = 0 ∧ State.reset.host.phase = .compute ∧ State.reset.host.halted = false ∧
  State.reset.consumer.channel = .idle ∧ State.reset.block.settled = false ∧
  ∃ t, step State.reset = .next t ∧ t.host.phase = .transmit ∧ t.block.out.rgb = ⟨255, 0, 0⟩ ∧
    t.block.out.pw = encodeRgb Params.nominal ⟨255, 0, 0⟩

/-- Under no fault, one iteration of the loop sends the frame of the hue and comes back to step 1 with the hue advanced: 32
steps from any state at step 1 with the channel `idle` (R96, R103). The count of the steps rests on the model's choices of
what one step is (assumptions 3 and 15), and the outcome in store on assumption 7. One word a step is assumption 8. That the
iteration keeps `readData` and the buffer, the consumer reading by index and laying out at lines of the program only, is
assumption 23. -/
def Obligations.LoopIterationSendsTheFrame : Prop :=
  ∀ (s : State) (ds : List AwaitDraw), s.host.halted = false → s.host.suspension = .running → s.host.script = none →
    s.host.retrying = false → s.host.phase = .compute → s.consumer.channel = .idle → s.consumer.awaitDraws = .ok :: ds →
    ∃ t, core.run 32 s = .next t ∧
      t.host = { s.host with hue := (s.host.hue + 1) % 360 } ∧ t.params = s.params ∧
      t.consumer = { s.consumer with
        awaitDraws := ds
        frames := s.consumer.frames ++
          [⟨(encodeRgb s.params (hsvToRgb (BitVec.ofNat 16 s.host.hue) 255 255)).toList.take 24, .ok⟩] }

/-- R103: under no fault, frame `i` of the loop started at `H = 0` is the encoding of hue `i mod 360` at full saturation and
value, for any number of iterations. The count of 32 steps to an iteration rests on the model's choices of what one step is
(assumptions 3 and 15), and the outcomes in store on assumption 7. One word a step is assumption 8. -/
def Obligations.LoopFramesFollowTheHueRamp : Prop :=
  ∀ (n : Nat) (s : State) (ds : List AwaitDraw), s.host.halted = false → s.host.suspension = .running →
    s.host.script = none → s.host.retrying = false → s.host.phase = .compute → s.host.hue = 0 →
    s.consumer.channel = .idle → s.consumer.awaitDraws = List.replicate n .ok ++ ds →
    ∃ t, core.run (32 * n) s = .next t ∧ t.host.hue = n % 360 ∧ t.host.phase = .compute ∧
      t.consumer.channel = .idle ∧ t.consumer.awaitDraws = ds ∧
      t.consumer.frames = s.consumer.frames ++ (List.range n).map fun i =>
        ⟨(encodeRgb s.params (hsvToRgb (BitVec.ofNat 16 (i % 360)) 255 255)).toList.take 24, .ok⟩

/-- R56: the pseudo-instructions expand as stated, and a program that repeats CYCLE does what the loop does, in every build
and also after a fault: each step of the loop is one or two steps of the program (the second is its JMP). The premise
`awaitsInTransmit` is part of the invariant that every step keeps. What the program does under `retry` is the model's choice
(assumption 10). What one step is, is the model's choice too (assumptions 3, 8 and 15), and so is how an outcome is drawn
(assumption 7). -/
def Obligations.CycleProgramSimulatesTheLoop : Prop :=
  (∀ h, assemble [.enchue h] = assemble [.convenc h 255 255]) ∧
  ∃ lines, assemble [.label 0, .cycle, .jmp 0] = .ok lines ∧
    lines = [Phase.compute.line, Phase.transmit.line, Phase.resetDelay.line, Phase.advance.line, Phase.cosmeticDelay.line, .jmp 0] ∧
    ∀ s t : State, s.host.script = none → s.awaitsInTransmit → step s = .next t →
      let pos : HostAgent → Nat := fun h => if h.retrying then 1 else match h.phase with
        | .compute => 0
        | .transmit => 1
        | .resetDelay => 2
        | .advance => 3
        | .cosmeticDelay => 4
      let asProgram : State → State := fun x =>
        { x with host := { x.host with phase := .compute, script := some ⟨lines, pos x.host, 0⟩ } }
      ∃ u, step (asProgram s) = .next u ∧ (u = asProgram t ∨ step u = .next (asProgram t))

/-! ### What every step keeps -/

/-- Every step keeps the invariant of Safety.lean, from every state that has it. The model's choices in it: which
transmissions are clean (assumption 8), their end after 25 words (assumption 9), an await only with a transmission
(assumption 12), the retry of a program (assumption 10), and the form of the buffer (assumption 13). -/
def Obligations.StepKeepsTheInvariant : Prop := ∀ s t : State, s.Inv → step s = .next t → t.Inv

/-- The machine after reset has the invariant. The empty buffer is assumption 13. -/
def Obligations.ResetHasTheInvariant : Prop := State.reset.Inv

/-- R97 and R101: no step changes `H` but a hue advance. -/
def Obligations.OnlyTheAdvanceChangesHue : Prop :=
  ∀ s t : State, step s = .next t → t.host.hue = s.host.hue ∨
    (s.host.suspension = .running ∧ s.host.action = some .hadv ∧ t.host.hue = (s.host.hue + 1) % 360)

/-- R18 and R30: no step changes a build parameter. That the parameters stand in the state is assumption 5. -/
def Obligations.NoStepChangesTheParameters : Prop := ∀ s t : State, step s = .next t → t.params = s.params

/-- R12 and R15: a step leaves the block's ports alone unless the host drives them or waits for them to settle. Once the
outputs have settled this is the rules' own; before, that they keep one draw in the window and settle at no other step is
the model's choice (assumptions 1 and 26), and so is that an issue drives, waits and answers in one step (assumption 3). -/
def Obligations.OnlyTheHostMovesTheBlockPorts : Prop :=
  ∀ s t : State, step s = .next t → t.block = s.block ∨
    (∃ w, s.nextCmd = some w ∧ t.block = ⟨InBundle.ofCmd w, blockF s.params (InBundle.ofCmd w), true⟩) ∨
    (∃ w, s.host.action = some (.drive w) ∧ t.block.inp = InBundle.ofCmd w) ∨
    (s.host.action = some .settle ∧ t.block = ⟨s.block.inp, blockF s.params s.block.inp, true⟩)

/-- R22 and R99: the channel becomes `busy` only by `transmit` and `idle` only by the end of a transmission that the host
observes, which puts one frame on record (also one without words: assumption 24); no other step changes the record. A fault
leaves whole words on record (assumption 25). A fault drawn for later than the words reach is reported at their end by
assumption 7. What a transmission remembers is assumption 8. -/
def Obligations.ChannelAndRecordOfFrames : Prop :=
  ∀ s t : State, step s = .next t →
    (∀ x, s.consumer.channel = .idle → t.consumer.channel = .busy x →
      x = ⟨[], s.block.settled⟩ ∧ (s.host.action = some .tx ∨ s.host.action = some .transmit)) ∧
    (∀ x, s.consumer.channel = .busy x → t.consumer.channel = .idle →
      ∃ plan, s.host.suspension = .awaiting plan ∧
        t.consumer.frames = s.consumer.frames ++ [⟨x.sent, plan.result⟩]) ∧
    (t.consumer.frames = s.consumer.frames ∨
      (∃ x, s.consumer.channel = .busy x) ∧ t.consumer.channel = .idle)

/-- R27 and R29: the buffer changes only where a sequence is laid into it, at a line of the host's program (assumption 23).
The buffer has no bounds (assumption 13). -/
def Obligations.OnlyLayingOutChangesTheBuffer : Prop :=
  ∀ s t : State, step s = .next t → t.consumer.buffer = s.consumer.buffer ∨
    ∃ base, s.host.action = some (.layOut base) ∧
      ∀ a, a < base ∨ base + 100 ≤ a → t.consumer.buffer.read a = s.consumer.buffer.read a

/-- R100: the host is halted only by a TransmissionFault under `FAULT_POLICY = halt`. The outcome fixed when the await
begins is assumption 7. -/
def Obligations.OnlyATransmissionFaultHalts : Prop :=
  ∀ s t : State, step s = .next t → t.host.halted = true →
    s.params.faultPolicy = .halt ∧ ∃ cause cut, s.host.suspension = .awaiting (.fault cause cut) ∧
      t.consumer.channel = .idle ∧ t.host.hue = s.host.hue

/-! ### Programs, and what is read before the outputs have settled -/

/-- `JMP` (R55): the host goes on at the line of the jump, with all else as it was. Where the outputs have not settled, that
the ports stay as they are is the model's choice (assumptions 1 and 26). That a jump keeps `readData` and the buffer, the
consumer reading by index and laying out at lines of the program only, is assumption 23. -/
def Obligations.JumpContinuesAtTheLine : Prop :=
  ∀ (s : State) (n : Nat), s.host.halted = false → s.host.suspension = .running → s.host.action = some (.jmp n) →
    ∃ p t, s.host.script = some p ∧ step s = .next t ∧
      t = { s with host := { s.host with script := some { p with pos := n } } } ∧ t.host.action = p.lines[n]?

/-- `label:` and `JMP label` (R55): in an assembled program every jump to a label becomes a jump to the number of the lines
that stand before the label, and from that number on stand the lines of what follows the label. Labels are numbers here, and
what the assembler rejects is the model's choice (assumption 18). -/
def Obligations.JumpsResolveToTheLineAfterTheLabel : Prop :=
  ∀ (before after : List AsmLine) (l : Nat) (lines : List HostLine),
    assemble (before ++ .label l :: after) = .ok lines →
    let count : List AsmLine → Nat := fun ls =>
      ((ls.flatMap AsmLine.expand).filter fun x => match x with
        | .label _ => false
        | _ => true).length
    (∀ before' after', before ++ .label l :: after = before' ++ .jmp l :: after' →
      lines[count before']? = some (.jmp (count before))) ∧
    emitAll ((before ++ .label l :: after).flatMap AsmLine.expand) (after.flatMap AsmLine.expand) =
      .ok (lines.drop (count before))

/-- R109: each word of a transmission that started from unsettled outputs is a draw of its own. That the draws are taken as
the words are sent is the model's choice (assumption 8), and so is the end after 25 words with no zero word among them
(assumption 9) and the record of a transmission that sent nothing (assumption 24). Where the outputs have not settled, that
the ports stay as they are is the model's choice (assumptions 1 and 26). A fault drawn for later than the words reach is
reported at their end by assumption 7. That reading a word to send it keeps `readData` and the buffer, the consumer reading
by index and laying out at lines of the program only, is assumption 23. -/
def Obligations.UnsettledTransmissionSendsDraws : Prop :=
  ∀ (s : State) (plan : AwaitDraw) (x : Transmission), s.host.halted = false → s.host.suspension = .awaiting plan →
    s.consumer.channel = .busy x → x.clean = false → plan.cutsAt x.sent.length = false →
    (x.sent.length < 25 → ∃ t, step s = .next t ∧ t.draws = s.draws + 1 ∧ t.block = s.block ∧
      ((Config.drawWord s.draws x.sent.length ≠ 0 ∧ t.host = s.host ∧ t.consumer =
          { s.consumer with channel := .busy ⟨x.sent ++ [Config.drawWord s.draws x.sent.length], false⟩ }) ∨
        (Config.drawWord s.draws x.sent.length = 0 ∧ t.consumer =
          { s.consumer with channel := .idle, frames := s.consumer.frames ++ [⟨x.sent, plan.result⟩] }))) ∧
    (25 ≤ x.sent.length → ∃ t, step s = .next t ∧ t.draws = s.draws ∧ t.block = s.block ∧ t.consumer =
      { s.consumer with channel := .idle, frames := s.consumer.frames ++ [⟨x.sent, plan.result⟩] })

/-- Driving what already stands on the inputs is no change, also while the channel is `busy`: the model's reading of R109
and R110 (assumption 19). Where the outputs have not settled, that the ports stay as they are is the model's choice
(assumptions 1 and 26). That driving keeps `readData` and the buffer, the consumer reading by index and laying out at lines
of the program only, is assumption 23. -/
def Obligations.DrivingThePresentBundleIsNoChange : Prop :=
  ∀ (s : State) (w : Cmd), InBundle.ofCmd w = s.block.inp →
    drive (InBundle.ofCmd w) s = .next s ∧
    (s.host.halted = false → s.host.suspension = .running → s.host.action = some (.drive w) →
      step s = .next (s.mapHost HostAgent.proceed))

/-- The frame of a program starts at the line of its last issued operation, its lines never change, and nothing else moves
the start of its frame: the model's choice of where `retry` goes back to (R100; assumption 10). -/
def Obligations.RepeatedFrameStartsAtTheLastIssue : Prop :=
  ∀ (s t : State) (p : Script), s.host.script = some p → step s = .next t →
    ∃ q, t.host.script = some q ∧ q.lines = p.lines ∧
      (∀ w, s.nextCmd = some w → q.pos = p.pos + 1 ∧ q.frameStart = p.pos) ∧
      (s.nextCmd = none → q.frameStart = p.frameStart)

/-- P4 under `retry`: a program that repeats CYCLE, with a fault and then `Ok` in store, records the part of the frame of
`H` that was sent, comes back to its CONVENC with `H` kept, and then sends the whole frame of the same `H` and advances. The
counts of the steps, where the program goes back to, and the outcomes in store rest on assumptions 3, 7, 10 and 15, the
record of a first frame without words on assumption 24. The first frame holds whole words by assumption 25. One word a step
is assumption 8. That the run keeps `readData` and the buffer, the consumer reading by index and laying out at lines of the
program only, is assumption 23. -/
def Obligations.CycleProgramRepeatsTheFrame : Prop :=
  ∃ lines, assemble [.label 0, .cycle, .jmp 0] = .ok lines ∧
    ∀ (s : State) (cause cut start : Nat) (ds : List AwaitDraw), s.host.halted = false → s.host.suspension = .running →
      s.host.script = some ⟨lines, 0, start⟩ → s.host.retrying = false → s.params.faultPolicy = .retry →
      s.consumer.channel = .idle → s.consumer.awaitDraws = .fault cause cut :: .ok :: ds →
      let words := (encodeRgb s.params (hsvToRgb (BitVec.ofNat 16 s.host.hue) 255 255)).toList.take 24
      ∃ t u : State, core.run (min cut 24 + 5) s = .next t ∧
        t.host = { s.host with script := some ⟨lines, 0, 0⟩ } ∧
        t.consumer = { s.consumer with
          awaitDraws := .ok :: ds
          frames := s.consumer.frames ++ [⟨words.take cut, .fault cause⟩] } ∧
        core.run 33 t = .next u ∧
        u.host = { s.host with hue := (s.host.hue + 1) % 360, script := some ⟨lines, 0, 0⟩ } ∧
        u.consumer = { s.consumer with
          awaitDraws := ds
          frames := s.consumer.frames ++ [⟨words.take cut, .fault cause⟩, ⟨words, .ok⟩] }
end

