-- ==== Sys2Proof/Laws/Converter.lean ====
section
/-! SUPPORT. The converter: its region, its levels and its selection. -/

namespace Sys2Proof.Machine

theorem hueNorm_lt (hue : Nat) : hueNorm hue < 360 := Nat.mod_lt _ (by decide)

theorem hueRegion_lt (hue : Nat) : hueRegion (hueNorm hue) < 6 := by
  have := hueNorm_lt hue
  simp only [hueRegion, Config.regionSpan]
  omega

theorem hueRem_le (hue : Nat) : hueRem (hueNorm hue) ≤ 354 := by
  have := hueNorm_lt hue
  simp only [hueRem, hueRegion, Config.regionSpan]
  omega

/-- A level is the value times a factor of at most 255, divided by 255, so it is at most the value (R69). -/
theorem scaled_le (v f : Nat) (h : f ≤ 255) : v * f / 255 ≤ v := by
  have := Nat.mul_le_mul_left v h
  omega

theorem levelP_le (s v : Nat) : levelP s v ≤ v := scaled_le _ _ (Nat.sub_le _ _)
theorem levelQ_le (s v rem : Nat) : levelQ s v rem ≤ v := scaled_le _ _ (Nat.sub_le _ _)
theorem levelT_le (s v rem : Nat) : levelT s v rem ≤ v := scaled_le _ _ (Nat.sub_le _ _)

/-- The three channels of a color made of numbers below 256. -/
theorem ofNats_toNat (r g b : Nat) (hr : r < 256) (hg : g < 256) (hb : b < 256) :
    (Rgb.ofNats r g b).r.toNat = r ∧ (Rgb.ofNats r g b).g.toNat = g ∧ (Rgb.ofNats r g b).b.toNat = b := by
  simp only [Rgb.ofNats, BitVec.toNat_ofNat]
  omega

end Sys2Proof.Machine
end

