-- ==== Sys2Proof/Laws/Decode.lean ====
section
/-! SUPPORT. The fields of a packed CMD, and what the decoder gives for each `op`. -/

namespace Sys2Proof

section
variable (g r b : Chan) (hue : Hue) (sat val : Chan) (op : BitVec 2)

theorem packCmd_op : Cmd.op (packCmd g r b hue sat val op) = op := by
  unfold Cmd.op packCmd
  rw [BitVec.extractLsb'_append_eq_right]

theorem packCmd_val : Cmd.val (packCmd g r b hue sat val op) = val := by
  unfold Cmd.val packCmd
  simp (disch := decide) only [BitVec.extractLsb'_append_eq_of_le]
  rw [BitVec.extractLsb'_append_eq_of_add_le (by decide), BitVec.extractLsb'_eq_self]

theorem packCmd_sat : Cmd.sat (packCmd g r b hue sat val op) = sat := by
  unfold Cmd.sat packCmd
  simp (disch := decide) only [BitVec.extractLsb'_append_eq_of_le]
  rw [BitVec.extractLsb'_append_eq_of_add_le (by decide), BitVec.extractLsb'_eq_self]

theorem packCmd_hue : Cmd.hue (packCmd g r b hue sat val op) = hue := by
  unfold Cmd.hue packCmd
  simp (disch := decide) only [BitVec.extractLsb'_append_eq_of_le]
  rw [BitVec.extractLsb'_append_eq_of_add_le (by decide), BitVec.extractLsb'_eq_self]

theorem packCmd_b : Cmd.b (packCmd g r b hue sat val op) = b := by
  unfold Cmd.b packCmd
  simp (disch := decide) only [BitVec.extractLsb'_append_eq_of_le]
  rw [BitVec.extractLsb'_append_eq_of_add_le (by decide), BitVec.extractLsb'_eq_self]

theorem packCmd_r : Cmd.r (packCmd g r b hue sat val op) = r := by
  unfold Cmd.r packCmd
  simp (disch := decide) only [BitVec.extractLsb'_append_eq_of_le]
  rw [BitVec.extractLsb'_append_eq_of_add_le (by decide), BitVec.extractLsb'_eq_self]

theorem packCmd_g : Cmd.g (packCmd g r b hue sat val op) = g := by
  unfold Cmd.g packCmd
  simp (disch := decide) only [BitVec.extractLsb'_append_eq_of_le]
  rw [BitVec.extractLsb'_eq_self]

end

/-- A 2-bit operation select is one of four values. -/
theorem op_cases (x : BitVec 2) : x = 0#2 ∨ x = 1#2 ∨ x = 2#2 ∨ x = 3#2 := by
  revert x; decide

/-- The operation select as a number. -/
theorem op_toNat (w : Cmd) : (Cmd.op w).toNat = w.toNat % 4 := by
  simp [Cmd.op, BitVec.extractLsb'_toNat]

theorem op_eq_iff (w : Cmd) (k : Nat) (hk : k < 4) : Cmd.op w = BitVec.ofNat 2 k ↔ w.toNat % 4 = k := by
  rw [← op_toNat]
  constructor
  · intro h
    rw [h, BitVec.toNat_ofNat]
    omega
  · intro h
    apply BitVec.eq_of_toNat_eq
    rw [h, BitVec.toNat_ofNat]
    omega

namespace Machine

/-- A bundle packed into a CMD and driven from it is the bundle (R42). -/
theorem ofCmd_toCmd (b : InBundle) : InBundle.ofCmd b.toCmd = b := by
  simp only [InBundle.ofCmd, InBundle.toCmd, packCmd_op, packCmd_hue, packCmd_sat, packCmd_val, packCmd_r, packCmd_g,
    packCmd_b]

/-- Executing what a CMD decodes to is the block's function `F` of the bundle that CMD drives (R12, R43). -/
theorem exec_decode (w : Cmd) (s : State) :
    exec (decode w) s = .next (s.answer (blockF s.params (InBundle.ofCmd w))) := by
  rcases op_cases (Cmd.op w) with h | h | h | h <;>
    simp [decode, blockF, InBundle.ofCmd, h, exec, execConv, execEnc, execConvenc, execRsvd]

/-- What any operation does to the state: it drives the output bundle and nothing else (R12, R27). -/
theorem exec_next (i : Instr) (s : State) : ∃ o, exec i s = .next (s.answer o) := by
  cases i <;> exact ⟨_, rfl⟩

end Machine

end Sys2Proof
end

