-- ==== Sys2Proof/Laws/Encoder.lean ====
section
/-! SUPPORT. The pulse word and the encoded sequence. -/

namespace Sys2Proof.Machine

/-- The arithmetic form of a pulse word (R47). -/
theorem pword_toNat (dh dl : Ticks) : (pword dh dl).toNat = dh.toNat + 32768 + dl.toNat * 65536 := by
  have h1 := dh.isLt
  have h2 := dl.isLt
  simp only [pword, BitVec.toNat_append, BitVec.toNat_ofNat]
  simp only [Nat.reducePow, Nat.reduceMod, Nat.zero_shiftLeft, Nat.zero_or]
  rw [← Nat.shiftLeft_add_eq_or_of_lt (by omega), ← Nat.shiftLeft_add_eq_or_of_lt (by omega)]
  simp only [Nat.shiftLeft_eq]
  omega

@[simp] theorem pwDur0_pword (dh dl : Ticks) : pwDur0 (pword dh dl) = dh := by
  apply BitVec.eq_of_toNat_eq
  have h1 := dh.isLt
  simp only [pwDur0, BitVec.extractLsb'_toNat, pword_toNat, Nat.shiftRight_eq_div_pow]
  omega

@[simp] theorem pwDur1_pword (dh dl : Ticks) : pwDur1 (pword dh dl) = dl := by
  apply BitVec.eq_of_toNat_eq
  have h1 := dh.isLt
  have h2 := dl.isLt
  simp only [pwDur1, BitVec.extractLsb'_toNat, pword_toNat, Nat.shiftRight_eq_div_pow]
  omega

@[simp] theorem pwLvl0_pword (dh dl : Ticks) : pwLvl0 (pword dh dl) = true := by
  have h1 := dh.isLt
  simp only [pwLvl0, BitVec.getLsbD, Nat.testBit_eq_decide_div_mod_eq, pword_toNat, decide_eq_true_eq]
  omega

@[simp] theorem pwLvl1_pword (dh dl : Ticks) : pwLvl1 (pword dh dl) = false := by
  have h1 := dh.isLt
  have h2 := dl.isLt
  simp only [pwLvl1, BitVec.getLsbD, Nat.testBit_eq_decide_div_mod_eq, pword_toNat, decide_eq_false_iff_not]
  omega

/-- No data word is zero: its polarity marker is set (R83). -/
theorem bitWord_ne_zero (p : Params) (b : Bool) : bitWord p b ≠ 0 := by
  intro h
  have : pwLvl0 (bitWord p b) = true := by cases b <;> simp [bitWord]
  rw [h] at this
  exact absurd this (by decide)

/-- Word `k` of an encoded color (R74). -/
theorem encodeRgb_get (p : Params) (c : Rgb) (k : Nat) (h : k < 25) :
    (encodeRgb p c)[k] = if k < 24 then bitWord p ((grbWord c).getLsbD (23 - k)) else 0 := by
  rw [encodeRgb, Vector.getElem_ofFn]
  rfl

/-- The numeric value of the GRB word (R50). -/
theorem grbWord_toNat (c : Rgb) : (grbWord c).toNat = c.g.toNat * 65536 + c.r.toNat * 256 + c.b.toNat := by
  have h1 := c.r.isLt
  have h2 := c.b.isLt
  simp only [grbWord, BitVec.toNat_append]
  rw [← Nat.shiftLeft_add_eq_or_of_lt h1, ← Nat.shiftLeft_add_eq_or_of_lt h2]
  simp only [Nat.shiftLeft_eq]
  omega

end Sys2Proof.Machine
end

