-- ==== Sys2Proof/Laws/Memory.lean ====
section
/-! SUPPORT. Byte memory: a read after a write, and that every write keeps the canonical form. -/

namespace Sys2Proof.Machine

/-- A byte written reads back; every other address reads as before. -/
theorem read_write (m : Memory) (a x : Nat) (v : Byte) :
    (m.write a v).read x = if x = a then some v else m.read x := by
  induction m with
  | nil => by_cases h : x = a <;> simp [Memory.write, Memory.read, h]
  | cons e m ih =>
    obtain ⟨y, c⟩ := e
    unfold Memory.write
    split
    · by_cases h : x = a <;> simp [Memory.read, h]
    · split
      · by_cases h : x = a <;> simp_all [Memory.read]
      · by_cases h : x = y
        · have : x ≠ a := by omega
          simp [Memory.read, h]
          omega
        · simp [Memory.read, h, ih]

/-- The addresses listed after a write are the address written and those listed before. -/
theorem mem_write_addr (m : Memory) (a x : Nat) (v : Byte) :
    x ∈ (m.write a v).map Prod.fst ↔ x = a ∨ x ∈ m.map Prod.fst := by
  induction m with
  | nil => simp [Memory.write]
  | cons e m ih =>
    obtain ⟨y, c⟩ := e
    unfold Memory.write
    split
    · simp
    · split
      · simp_all
      · simp only [List.map_cons, List.mem_cons, ih]
        tauto

/-- A write keeps the addresses rising. -/
theorem write_wf (m : Memory) (a : Nat) (v : Byte) (h : m.wf) : (m.write a v).wf := by
  induction m with
  | nil => simp [Memory.wf, Memory.write]
  | cons e m ih =>
    obtain ⟨y, c⟩ := e
    simp only [Memory.wf, List.map_cons, List.pairwise_cons] at h
    unfold Memory.write
    split
    · rename_i hlt
      simp only [Memory.wf, List.map_cons, List.pairwise_cons, List.mem_cons]
      refine ⟨?_, h⟩
      rintro x (rfl | hx)
      · exact hlt
      · exact Nat.lt_trans hlt (h.1 x hx)
    · split
      · rename_i heq
        simp only [Memory.wf, List.map_cons, List.pairwise_cons]
        exact ⟨fun x hx => heq ▸ h.1 x hx, h.2⟩
      · simp only [Memory.wf, List.map_cons, List.pairwise_cons]
        refine ⟨fun x hx => ?_, ih h.2⟩
        rcases (mem_write_addr m a x v).1 hx with rfl | hx
        · omega
        · exact h.1 x hx

theorem writeWord_wf (o : ByteOrder) (m : Memory) (a : Nat) (w : PulseWord) (h : m.wf) : (m.writeWord o a w).wf :=
  write_wf _ _ _ (write_wf _ _ _ (write_wf _ _ _ (write_wf _ _ _ h)))

theorem writeWords_wf (o : ByteOrder) (ws : List PulseWord) :
    ∀ (m : Memory) (a : Nat), m.wf → (Memory.writeWords o m a ws).wf := by
  induction ws with
  | nil => exact fun m _ h => h
  | cons w ws ih => exact fun m a h => ih _ _ (writeWord_wf o m a w h)

/-- A word laid: its four bytes at the address, every other byte as before. -/
theorem read_writeWord (o : ByteOrder) (m : Memory) (a x : Nat) (w : PulseWord) :
    (m.writeWord o a w).read x = if a ≤ x ∧ x < a + 4 then some (wordByte o w (x - a)) else m.read x := by
  simp only [Memory.writeWord, read_write]
  by_cases h3 : x = a + 3
  · simp [h3]
  by_cases h2 : x = a + 2
  · simp [h2]
  by_cases h1 : x = a + 1
  · simp [h1]
  by_cases h0 : x = a
  · simp [h0]
  have : ¬(a ≤ x ∧ x < a + 4) := by omega
  simp [h0, h1, h2, h3, this]

/-- Words laid: byte `i` of word `k` at `4*k + i` from the base, every other byte as before (R29). -/
theorem read_writeWords (o : ByteOrder) (ws : List PulseWord) :
    ∀ (m : Memory) (a x : Nat), (Memory.writeWords o m a ws).read x =
      if a ≤ x ∧ x < a + 4 * ws.length then some (wordByte o (ws.getD ((x - a) / 4) 0) ((x - a) % 4)) else m.read x := by
  induction ws with
  | nil => intro m a x; simp [Memory.writeWords]
  | cons w ws ih =>
    intro m a x
    simp only [Memory.writeWords, ih, read_writeWord, List.length_cons]
    by_cases h : a + 4 ≤ x ∧ x < a + 4 + 4 * ws.length
    · have hd : (x - a) / 4 = (x - (a + 4)) / 4 + 1 := by omega
      have hm : (x - a) % 4 = (x - (a + 4)) % 4 := by omega
      have hx : a ≤ x ∧ x < a + 4 * (ws.length + 1) := by omega
      rw [if_pos h, if_pos hx, hd, hm, List.getD_cons_succ]
    · rw [if_neg h]
      by_cases h4 : a ≤ x ∧ x < a + 4
      · have hd : (x - a) / 4 = 0 := by omega
        have hm : (x - a) % 4 = x - a := by omega
        have hx : a ≤ x ∧ x < a + 4 * (ws.length + 1) := by omega
        rw [if_pos h4, if_pos hx, hd, hm, List.getD_cons_zero]
      · have hx : ¬(a ≤ x ∧ x < a + 4 * (ws.length + 1)) := by omega
        rw [if_neg h4, if_neg hx]

end Sys2Proof.Machine
end

