-- ==== Sys2Proof/Laws/State.lean ====
section
/-! SUPPORT. What each named update of the state does to each field: one lemma per field per update. -/

namespace Sys2Proof.Machine

/-! ### Updates of the whole state -/

@[simp] theorem answer_params (o : OutBundle) (s : State) : (s.answer o).params = s.params := rfl

@[simp] theorem answer_block (o : OutBundle) (s : State) : (s.answer o).block = ⟨s.block.inp, o, true⟩ := rfl

@[simp] theorem answer_host (o : OutBundle) (s : State) : (s.answer o).host = s.host := rfl

@[simp] theorem answer_consumer (o : OutBundle) (s : State) : (s.answer o).consumer = s.consumer := rfl

@[simp] theorem answer_draws (o : OutBundle) (s : State) : (s.answer o).draws = s.draws := rfl

@[simp] theorem changeInputs_params (b : InBundle) (s : State) : (s.changeInputs b).params = s.params := rfl

@[simp] theorem changeInputs_block (b : InBundle) (s : State) : (s.changeInputs b).block = ⟨b, drawnOut s.draws, false⟩ := rfl

@[simp] theorem changeInputs_host (b : InBundle) (s : State) : (s.changeInputs b).host = s.host := rfl

@[simp] theorem changeInputs_consumer (b : InBundle) (s : State) : (s.changeInputs b).consumer = s.consumer := rfl

@[simp] theorem changeInputs_draws (b : InBundle) (s : State) : (s.changeInputs b).draws = s.draws + 1 := rfl

@[simp] theorem mapHost_params (f : HostAgent → HostAgent) (s : State) : (s.mapHost f).params = s.params := rfl

@[simp] theorem mapHost_block (f : HostAgent → HostAgent) (s : State) : (s.mapHost f).block = s.block := rfl

@[simp] theorem mapHost_host (f : HostAgent → HostAgent) (s : State) : (s.mapHost f).host = f s.host := rfl

@[simp] theorem mapHost_consumer (f : HostAgent → HostAgent) (s : State) : (s.mapHost f).consumer = s.consumer := rfl

@[simp] theorem mapHost_draws (f : HostAgent → HostAgent) (s : State) : (s.mapHost f).draws = s.draws := rfl

@[simp] theorem sendWord_params (t : Transmission) (w : PulseWord) (s : State) : (s.sendWord t w).params = s.params := rfl

@[simp] theorem sendWord_block (t : Transmission) (w : PulseWord) (s : State) : (s.sendWord t w).block = s.block := rfl

@[simp] theorem sendWord_host (t : Transmission) (w : PulseWord) (s : State) : (s.sendWord t w).host = s.host := rfl

@[simp] theorem sendWord_consumer (t : Transmission) (w : PulseWord) (s : State) : (s.sendWord t w).consumer = { s.consumer with channel := .busy ⟨t.sent ++ [w], t.clean⟩ } := rfl

@[simp] theorem sendWord_draws (t : Transmission) (w : PulseWord) (s : State) : (s.sendWord t w).draws = s.draws := rfl

@[simp] theorem endTransmission_params (t : Transmission) (d : AwaitDraw) (s : State) : (s.endTransmission t d).params = s.params := rfl

@[simp] theorem endTransmission_block (t : Transmission) (d : AwaitDraw) (s : State) : (s.endTransmission t d).block = s.block := rfl

@[simp] theorem endTransmission_host (t : Transmission) (d : AwaitDraw) (s : State) : (s.endTransmission t d).host = s.host.afterAwait s.params.faultPolicy d.result := rfl

@[simp] theorem endTransmission_consumer (t : Transmission) (d : AwaitDraw) (s : State) : (s.endTransmission t d).consumer = { s.consumer with channel := .idle, frames := s.consumer.frames ++ [⟨t.sent, d.result⟩] } := rfl

@[simp] theorem endTransmission_draws (t : Transmission) (d : AwaitDraw) (s : State) : (s.endTransmission t d).draws = s.draws := rfl

@[simp] theorem placeCmd_params (c : Cmd) (s : State) : (s.placeCmd c).params = s.params := rfl

@[simp] theorem placeCmd_block (c : Cmd) (s : State) : (s.placeCmd c).block = s.block := rfl

@[simp] theorem placeCmd_host (c : Cmd) (s : State) : (s.placeCmd c).host = { s.host with halted := false, retrying := false, suspension := .running, script := some ⟨[.issue c], 0, 0⟩ } := rfl

@[simp] theorem placeCmd_consumer (c : Cmd) (s : State) : (s.placeCmd c).consumer = { s.consumer with channel := .idle } := rfl

@[simp] theorem placeCmd_draws (c : Cmd) (s : State) : (s.placeCmd c).draws = s.draws := rfl

/-! ### Updates that depend on the state: what they leave alone -/

@[simp] theorem sampleWord_params (c : Bool) (k : Fin 25) (s : State) : (s.sampleWord c k).2.params = s.params := by
  unfold State.sampleWord; split <;> rfl

@[simp] theorem sampleWord_block (c : Bool) (k : Fin 25) (s : State) : (s.sampleWord c k).2.block = s.block := by
  unfold State.sampleWord; split <;> rfl

@[simp] theorem sampleWord_host (c : Bool) (k : Fin 25) (s : State) : (s.sampleWord c k).2.host = s.host := by
  unfold State.sampleWord; split <;> rfl

@[simp] theorem sampleWord_consumer (c : Bool) (k : Fin 25) (s : State) : (s.sampleWord c k).2.consumer = s.consumer := by
  unfold State.sampleWord; split <;> rfl

@[simp] theorem sampleSeq_params (s : State) : s.sampleSeq.2.params = s.params := by
  unfold State.sampleSeq; split <;> rfl

@[simp] theorem sampleSeq_block (s : State) : s.sampleSeq.2.block = s.block := by
  unfold State.sampleSeq; split <;> rfl

@[simp] theorem sampleSeq_host (s : State) : s.sampleSeq.2.host = s.host := by
  unfold State.sampleSeq; split <;> rfl

@[simp] theorem sampleSeq_consumer (s : State) : s.sampleSeq.2.consumer = s.consumer := by
  unfold State.sampleSeq; split <;> rfl

@[simp] theorem suspendInAwait_params (s : State) : s.suspendInAwait.params = s.params := by
  unfold State.suspendInAwait; split <;> rfl

@[simp] theorem suspendInAwait_block (s : State) : s.suspendInAwait.block = s.block := by
  unfold State.suspendInAwait; split <;> rfl

@[simp] theorem suspendInAwait_channel (s : State) : s.suspendInAwait.consumer.channel = s.consumer.channel := by
  unfold State.suspendInAwait; split <;> rfl

@[simp] theorem suspendInAwait_frames (s : State) : s.suspendInAwait.consumer.frames = s.consumer.frames := by
  unfold State.suspendInAwait; split <;> rfl

@[simp] theorem suspendInAwait_buffer (s : State) : s.suspendInAwait.consumer.buffer = s.consumer.buffer := by
  unfold State.suspendInAwait; split <;> rfl

@[simp] theorem suspendInAwait_readData (s : State) : s.suspendInAwait.consumer.readData = s.consumer.readData := by
  unfold State.suspendInAwait; split <;> rfl

@[simp] theorem suspendInAwait_host_hue (s : State) : s.suspendInAwait.host.hue = s.host.hue := by
  unfold State.suspendInAwait; split <;> rfl

@[simp] theorem suspendInAwait_host_phase (s : State) : s.suspendInAwait.host.phase = s.host.phase := by
  unfold State.suspendInAwait; split <;> rfl

@[simp] theorem suspendInAwait_host_halted (s : State) : s.suspendInAwait.host.halted = s.host.halted := by
  unfold State.suspendInAwait; split <;> rfl

@[simp] theorem suspendInAwait_host_retrying (s : State) : s.suspendInAwait.host.retrying = s.host.retrying := by
  unfold State.suspendInAwait; split <;> rfl

@[simp] theorem suspendInAwait_host_script (s : State) : s.suspendInAwait.host.script = s.host.script := by
  unfold State.suspendInAwait; split <;> rfl

@[simp] theorem suspendInAwait_host_atFault (s : State) : s.suspendInAwait.host.atFault = s.host.atFault := by
  unfold State.suspendInAwait; split <;> rfl

@[simp] theorem layOut_params (b : Nat) (s : State) : (s.layOut b).params = s.params := by
  simp [State.layOut]

@[simp] theorem layOut_block (b : Nat) (s : State) : (s.layOut b).block = s.block := by
  simp [State.layOut]

@[simp] theorem layOut_host (b : Nat) (s : State) : (s.layOut b).host = s.host := by
  simp [State.layOut]

@[simp] theorem layOut_channel (b : Nat) (s : State) : (s.layOut b).consumer.channel = s.consumer.channel := rfl

@[simp] theorem layOut_frames (b : Nat) (s : State) : (s.layOut b).consumer.frames = s.consumer.frames := rfl

@[simp] theorem layOut_readData (b : Nat) (s : State) : (s.layOut b).consumer.readData = s.consumer.readData := rfl

@[simp] theorem layOut_awaitDraws (b : Nat) (s : State) : (s.layOut b).consumer.awaitDraws = s.consumer.awaitDraws := rfl

@[simp] theorem layOut_buffer (b : Nat) (s : State) : (s.layOut b).consumer.buffer =
    Memory.writeWords s.params.byteOrder s.consumer.buffer b s.sampleSeq.1.toList := rfl

/-! ### Updates of the host agent -/

@[simp] theorem proceed_hue (h : HostAgent) : h.proceed.hue = h.hue := by
  unfold HostAgent.proceed; split <;> rfl

@[simp] theorem proceed_halted (h : HostAgent) : h.proceed.halted = h.halted := by
  unfold HostAgent.proceed; split <;> rfl

@[simp] theorem proceed_retrying (h : HostAgent) : h.proceed.retrying = h.retrying := by
  unfold HostAgent.proceed; split <;> rfl

@[simp] theorem proceed_atFault (h : HostAgent) : h.proceed.atFault = h.atFault := by
  unfold HostAgent.proceed; split <;> rfl

@[simp] theorem proceed_suspension (h : HostAgent) : h.proceed.suspension = .running := by
  unfold HostAgent.proceed; split <;> rfl

@[simp] theorem proceedFromIssue_hue (h : HostAgent) : h.proceedFromIssue.hue = h.hue := by
  unfold HostAgent.proceedFromIssue; split <;> rfl

@[simp] theorem proceedFromIssue_halted (h : HostAgent) : h.proceedFromIssue.halted = h.halted := by
  unfold HostAgent.proceedFromIssue; split <;> rfl

@[simp] theorem proceedFromIssue_retrying (h : HostAgent) : h.proceedFromIssue.retrying = h.retrying := by
  unfold HostAgent.proceedFromIssue; split <;> rfl

@[simp] theorem proceedFromIssue_atFault (h : HostAgent) : h.proceedFromIssue.atFault = h.atFault := by
  unfold HostAgent.proceedFromIssue; split <;> rfl

@[simp] theorem proceedFromIssue_suspension (h : HostAgent) : h.proceedFromIssue.suspension = .running := by
  unfold HostAgent.proceedFromIssue; split <;> rfl

@[simp] theorem restartFrame_hue (h : HostAgent) : h.restartFrame.hue = h.hue := by
  unfold HostAgent.restartFrame; split <;> rfl

@[simp] theorem restartFrame_halted (h : HostAgent) : h.restartFrame.halted = h.halted := by
  unfold HostAgent.restartFrame; split <;> rfl

@[simp] theorem restartFrame_atFault (h : HostAgent) : h.restartFrame.atFault = h.atFault := by
  unfold HostAgent.restartFrame; split <;> rfl

@[simp] theorem restartFrame_retrying (h : HostAgent) : h.restartFrame.retrying = false := by
  unfold HostAgent.restartFrame; split <;> rfl

@[simp] theorem restartFrame_suspension (h : HostAgent) : h.restartFrame.suspension = .running := by
  unfold HostAgent.restartFrame; split <;> rfl

@[simp] theorem jump_hue (n : Nat) (h : HostAgent) : (h.jump n).hue = h.hue := by
  unfold HostAgent.jump; split <;> rfl

@[simp] theorem jump_phase (n : Nat) (h : HostAgent) : (h.jump n).phase = h.phase := by
  unfold HostAgent.jump; split <;> rfl

@[simp] theorem jump_halted (n : Nat) (h : HostAgent) : (h.jump n).halted = h.halted := by
  unfold HostAgent.jump; split <;> rfl

@[simp] theorem jump_retrying (n : Nat) (h : HostAgent) : (h.jump n).retrying = h.retrying := by
  unfold HostAgent.jump; split <;> rfl

@[simp] theorem jump_suspension (n : Nat) (h : HostAgent) : (h.jump n).suspension = h.suspension := by
  unfold HostAgent.jump; split <;> rfl

@[simp] theorem jump_atFault (n : Nat) (h : HostAgent) : (h.jump n).atFault = h.atFault := by
  unfold HostAgent.jump; split <;> rfl

@[simp] theorem takeTransmissionFault_hue (p : FaultPolicy) (h : HostAgent) :
    (h.takeTransmissionFault p).hue = h.hue := by
  unfold HostAgent.takeTransmissionFault; repeat' split
  all_goals rfl

@[simp] theorem takeTransmissionFault_script (p : FaultPolicy) (h : HostAgent) :
    (h.takeTransmissionFault p).script = h.script := by
  unfold HostAgent.takeTransmissionFault; repeat' split
  all_goals rfl

@[simp] theorem takeTransmissionFault_atFault (p : FaultPolicy) (h : HostAgent) :
    (h.takeTransmissionFault p).atFault = h.atFault := by
  unfold HostAgent.takeTransmissionFault; repeat' split
  all_goals rfl

@[simp] theorem takeTransmissionFault_suspension (p : FaultPolicy) (h : HostAgent) :
    (h.takeTransmissionFault p).suspension = .running := by
  unfold HostAgent.takeTransmissionFault; repeat' split
  all_goals rfl

@[simp] theorem takeTransmissionFault_halted (p : FaultPolicy) (h : HostAgent) :
    (h.takeTransmissionFault p).halted = (h.halted || p == .halt) := by
  unfold HostAgent.takeTransmissionFault; repeat' split
  all_goals simp

@[simp] theorem takeTransmissionFault_retrying (p : FaultPolicy) (h : HostAgent) :
    (h.takeTransmissionFault p).retrying = (h.retrying || p == .retry) := by
  unfold HostAgent.takeTransmissionFault; repeat' split
  all_goals simp

@[simp] theorem sleep_hue (d : Duration) (h : HostAgent) : (h.sleep d).hue = h.hue := rfl

@[simp] theorem sleep_phase (d : Duration) (h : HostAgent) : (h.sleep d).phase = h.phase := rfl

@[simp] theorem sleep_halted (d : Duration) (h : HostAgent) : (h.sleep d).halted = h.halted := rfl

@[simp] theorem sleep_retrying (d : Duration) (h : HostAgent) : (h.sleep d).retrying = h.retrying := rfl

@[simp] theorem sleep_script (d : Duration) (h : HostAgent) : (h.sleep d).script = h.script := rfl

@[simp] theorem sleep_atFault (d : Duration) (h : HostAgent) : (h.sleep d).atFault = h.atFault := rfl

@[simp] theorem sleep_suspension (d : Duration) (h : HostAgent) : (h.sleep d).suspension = .sleeping d := rfl

@[simp] theorem wake_hue (h : HostAgent) : h.wake.hue = h.hue := by
  unfold HostAgent.wake; split <;> simp

@[simp] theorem wake_halted (h : HostAgent) : h.wake.halted = h.halted := by
  unfold HostAgent.wake; split <;> simp

@[simp] theorem wake_atFault (h : HostAgent) : h.wake.atFault = h.atFault := by
  unfold HostAgent.wake; split <;> simp

@[simp] theorem wake_retrying (h : HostAgent) : h.wake.retrying = false := by
  unfold HostAgent.wake; split <;> simp_all

@[simp] theorem wake_suspension (h : HostAgent) : h.wake.suspension = .running := by
  unfold HostAgent.wake; split <;> simp

@[simp] theorem afterIssue_hue (c : Cmd) (h : HostAgent) : (h.afterIssue c).hue = h.hue := by
  simp [HostAgent.afterIssue]

@[simp] theorem afterIssue_halted (c : Cmd) (h : HostAgent) : (h.afterIssue c).halted = h.halted := by
  simp [HostAgent.afterIssue]

@[simp] theorem afterIssue_retrying (c : Cmd) (h : HostAgent) : (h.afterIssue c).retrying = h.retrying := by
  simp [HostAgent.afterIssue]

@[simp] theorem afterIssue_suspension (c : Cmd) (h : HostAgent) : (h.afterIssue c).suspension = .running := by
  simp [HostAgent.afterIssue]

@[simp] theorem afterIssue_atFault (c : Cmd) (h : HostAgent) :
    (h.afterIssue c).atFault = (h.atFault || opErrOf (Cmd.op c)) := by
  simp [HostAgent.afterIssue]

@[simp] theorem afterAwait_hue (p : FaultPolicy) (r : TxResult) (h : HostAgent) : (h.afterAwait p r).hue = h.hue := by
  cases r <;> simp [HostAgent.afterAwait]

@[simp] theorem afterAwait_suspension (p : FaultPolicy) (r : TxResult) (h : HostAgent) :
    (h.afterAwait p r).suspension = .running := by
  cases r <;> simp [HostAgent.afterAwait]

end Sys2Proof.Machine
end

