-- ==== Sys2Proof/Laws/Ops.lean ====
section
/-! SUPPORT. What each shared operation and the step can do: one inversion lemma each. -/

namespace Sys2Proof.Machine

theorem andThen_next {o : Host.Outcome State Fault Refusal} {f : State → Host.Outcome State Fault Refusal} {s : State}
    (h : andThen o f = .next s) : ∃ s1, o = .next s1 ∧ f s1 = .next s := by
  cases o with
  | next s1 => exact ⟨s1, rfl, h⟩
  | fault r => cases h
  | refused r => cases h

theorem drive_next {b : InBundle} {s s' : State} (h : drive b s = .next s') :
    (b = s.block.inp ∧ s' = s) ∨ (b ≠ s.block.inp ∧ s.consumer.channel = .idle ∧ s' = s.changeInputs b) := by
  unfold drive at h
  split at h
  · rename_i hb; exact .inl ⟨hb, by simpa using h.symm⟩
  · rename_i hb
    split at h
    · cases h
    · rename_i hc; exact .inr ⟨hb, hc, by simpa using h.symm⟩

/-- After driving, the inputs are the bundle driven. -/
theorem drive_next_inp {b : InBundle} {s s' : State} (h : drive b s = .next s') : s'.block.inp = b := by
  rcases drive_next h with ⟨hb, rfl⟩ | ⟨-, -, rfl⟩
  · exact hb.symm
  · rfl

/-- A block operation: driven, answered with `F` of what was driven, and the host goes on. -/
theorem issue_next {cmd : Cmd} {s s' : State} (h : issue cmd s = .next s') :
    ∃ s1, drive (InBundle.ofCmd cmd) s = .next s1 ∧
      s' = (s1.answer (blockF s1.params (InBundle.ofCmd cmd))).mapHost (HostAgent.afterIssue cmd) := by
  obtain ⟨s1, h1, h2⟩ := andThen_next h
  rw [exec_decode] at h2
  exact ⟨s1, h1, by simpa [andThen] using h2.symm⟩

theorem startTransmit_next {s s' : State} (h : startTransmit s = .next s') :
    s.consumer.channel = .idle ∧
      s' = { s with consumer := { s.consumer with channel := .busy ⟨[], s.block.settled⟩ } } := by
  unfold startTransmit at h
  split at h
  · cases h
  · rename_i hc; exact ⟨hc, by simpa using h.symm⟩

theorem startAwait_next {s s' : State} (h : startAwait s = .next s') :
    (∃ t, s.consumer.channel = .busy t) ∧ s' = s.suspendInAwait := by
  unfold startAwait at h
  split at h
  · cases h
  · rename_i t hc; exact ⟨⟨t, hc⟩, by simpa using h.symm⟩

/-- One step of the consumer: a non-zero word of index `sent.length` is sent, or the transmission ends. -/
theorem awaitStep_next {plan : AwaitDraw} {s s' : State} (h : awaitStep plan s = .next s') :
    ∃ t, s.consumer.channel = .busy t ∧
      (s' = s.endTransmission t plan ∨
        ∃ hk : t.sent.length < 25,
          ((s.sampleWord t.clean ⟨t.sent.length, hk⟩).1 = 0 ∧
            s' = (s.sampleWord t.clean ⟨t.sent.length, hk⟩).2.endTransmission t plan) ∨
          ((s.sampleWord t.clean ⟨t.sent.length, hk⟩).1 ≠ 0 ∧
            s' = (s.sampleWord t.clean ⟨t.sent.length, hk⟩).2.sendWord t
              (s.sampleWord t.clean ⟨t.sent.length, hk⟩).1)) := by
  unfold awaitStep at h
  split at h
  · cases h
  · rename_i t hc
    refine ⟨t, hc, ?_⟩
    split at h
    · exact .inl (by simpa using h.symm)
    · split at h
      · rename_i hk
        split at h
        · rename_i hw; exact .inr ⟨hk, .inl ⟨hw, by simpa using h.symm⟩⟩
        · rename_i hw; exact .inr ⟨hk, .inr ⟨hw, by simpa using h.symm⟩⟩
      · exact .inl (by simpa using h.symm)

theorem readPulseWord_next {k : Nat} {s s' : State} (h : readPulseWord k s = .next s') :
    ∃ hk : k < 25, s' = { (s.sampleWord true ⟨k, hk⟩).2 with
      consumer := { s.consumer with readData := (s.sampleWord true ⟨k, hk⟩).1 } } := by
  unfold readPulseWord at h
  split at h
  · rename_i hk; exact ⟨hk, by simpa using h.symm⟩
  · cases h

/-- What a step can do: the consumer moves, a sleeping host wakes, or a running host performs its action. -/
theorem step_next {s s' : State} (h : step s = .next s') :
    s.host.halted = false ∧
      ((∃ plan, s.host.suspension = .awaiting plan ∧ awaitStep plan s = .next s') ∨
        (∃ d, s.host.suspension = .sleeping d ∧ s' = s.mapHost HostAgent.wake) ∨
        (s.host.suspension = .running ∧ ∃ l, s.host.action = some l ∧ lineStep l s = .next s')) := by
  unfold step hostStep at h
  split at h
  · cases h
  · rename_i hh
    refine ⟨by simpa using hh, ?_⟩
    split at h
    · rename_i plan hp; exact .inl ⟨plan, hp, h⟩
    · rename_i d hd; exact .inr (.inl ⟨d, hd, by simpa using h.symm⟩)
    · rename_i hr
      split at h
      · cases h
      · rename_i l hl; exact .inr (.inr ⟨hr, l, hl, h⟩)

/-- What a step of a host that runs can do, line by line. -/
theorem lineStep_next {l : HostLine} {s s' : State} (h : lineStep l s = .next s') :
    (∃ cmd, s.host.lineCmd l = some cmd ∧ issue cmd s = .next s') ∨
    (∃ cmd s1, l = .drive cmd ∧ drive (InBundle.ofCmd cmd) s = .next s1 ∧ s' = s1.mapHost HostAgent.proceed) ∨
    (l = .settle ∧ s' = (s.answer (blockF s.params s.block.inp)).mapHost HostAgent.proceed) ∨
    (∃ s1, l = .tx ∧ startTransmit s = .next s1 ∧ startAwait s1 = .next s') ∨
    (∃ s1, l = .transmit ∧ startTransmit s = .next s1 ∧ s' = s1.mapHost HostAgent.proceed) ∨
    (l = .await ∧ startAwait s = .next s') ∨
    (∃ n, l = .sleepUs n ∧ s' = s.mapHost (HostAgent.sleep (.us n))) ∨
    (∃ n, l = .sleepMs n ∧ s' = s.mapHost (HostAgent.sleep (.ms n))) ∨
    (l = .hadv ∧ s' = s.mapHost fun h => ({ h with hue := advanceHue h.hue } : HostAgent).proceed) ∨
    (∃ n, l = .jmp n ∧ s' = s.mapHost (HostAgent.jump n)) ∨
    (∃ k s1, l = .readWord k ∧ readPulseWord k s = .next s1 ∧ s' = s1.mapHost HostAgent.proceed) ∨
    (∃ b, l = .layOut b ∧ s' = (s.layOut b).mapHost HostAgent.proceed) := by
  cases l with
  | issue cmd => exact .inl ⟨cmd, rfl, h⟩
  | issueHue op sat val => exact .inl ⟨_, rfl, h⟩
  | drive cmd =>
    obtain ⟨s1, h1, h2⟩ := andThen_next h
    exact .inr (.inl ⟨cmd, s1, rfl, h1, by simpa using h2.symm⟩)
  | settle => exact .inr (by simpa [lineStep] using h.symm)
  | tx =>
    obtain ⟨s1, h1, h2⟩ := andThen_next h
    simp [h1, h2]
  | transmit =>
    obtain ⟨s1, h1, h2⟩ := andThen_next h
    exact .inr (by simpa [h1] using h2.symm)
  | await => exact .inr (by simpa [lineStep] using h)
  | sleepUs n => exact .inr (by simpa [lineStep] using h.symm)
  | sleepMs n => exact .inr (by simpa [lineStep] using h.symm)
  | hadv => exact .inr (by simpa [lineStep] using h.symm)
  | jmp n => exact .inr (by simpa [lineStep] using h.symm)
  | readWord k =>
    obtain ⟨s1, h1, h2⟩ := andThen_next h
    exact .inr (by simpa [h1] using h2.symm)
  | layOut b => exact .inr (by simpa [lineStep] using h.symm)

/-- A step of a host that runs. -/
theorem step_running {s : State} {l : HostLine} (h0 : s.host.halted = false) (h1 : s.host.suspension = .running)
    (h2 : s.host.action = some l) : step s = lineStep l s := by
  simp [step, hostStep, h0, h1, h2]

/-- A step of a host that awaits. -/
theorem step_awaiting {s : State} {d : AwaitDraw} (h0 : s.host.halted = false)
    (h1 : s.host.suspension = .awaiting d) : step s = awaitStep d s := by
  simp [step, hostStep, h0, h1]

/-- A step of a host that sleeps. -/
theorem step_sleeping {s : State} {d : Duration} (h0 : s.host.halted = false)
    (h1 : s.host.suspension = .sleeping d) : step s = .next (s.mapHost HostAgent.wake) := by
  simp [step, hostStep, h0, h1]

/-- What it means that the host issues an operation next. -/
theorem nextCmd_some {s : State} {w : Cmd} (h : s.nextCmd = some w) :
    s.host.halted = false ∧ s.host.suspension = .running ∧
      ∃ l, s.host.action = some l ∧ s.host.lineCmd l = some w := by
  unfold State.nextCmd at h
  split at h
  · cases h
  · rename_i hh
    split at h
    · cases h
    · cases h
    · rename_i hr
      obtain ⟨l, h1, h2⟩ := Option.bind_eq_some_iff.1 h
      exact ⟨by simpa using hh, hr, l, h1, h2⟩

/-- An action that issues an operation does that and nothing else. -/
theorem lineStep_of_lineCmd {s : State} {w : Cmd} {l : HostLine} (h : s.host.lineCmd l = some w) :
    lineStep l s = issue w s := by
  cases l <;> simp [HostAgent.lineCmd] at h <;> subst h <;> rfl

/-- A step of a host that issues an operation. -/
theorem step_issue {s : State} {w : Cmd} (h : s.nextCmd = some w) : step s = issue w s := by
  obtain ⟨h0, h1, l, h2, h3⟩ := nextCmd_some h
  rw [step_running h0 h1 h2, lineStep_of_lineCmd h3]

/-- A run of one step more, of any machine. -/
theorem coreRun_succ (M : Host.Core) (k : Nat) {s t : M.State} (h : M.step s = .next t) :
    M.run (k + 1) s = M.run k t := by
  rw [Host.Core.run, h]

/-- A run after a run, of any machine. -/
theorem coreRun_add (M : Host.Core) (j k : Nat) {s t : M.State} (h : M.run j s = .next t) :
    M.run (j + k) s = M.run k t := by
  induction j generalizing s with
  | zero =>
    cases h
    rw [Nat.zero_add]
  | succ j ih =>
    rw [Host.Core.run] at h
    cases hs : M.step s with
    | next u =>
      rw [hs] at h
      rw [show j + 1 + k = (j + k) + 1 by omega, coreRun_succ M _ hs]
      exact ih h
    | fault r => rw [hs] at h; cases h
    | refused r => rw [hs] at h; cases h

/-- A run of one step more. -/
theorem run_succ (k : Nat) {s t : State} (h : step s = .next t) : core.run (k + 1) s = core.run k t :=
  coreRun_succ core k h

/-- A run after a run. -/
theorem run_add (j k : Nat) {s t : State} (h : core.run j s = .next t) : core.run (j + k) s = core.run k t :=
  coreRun_add core j k h

/-- A run of no step. -/
theorem run_zero (s : State) : core.run 0 s = .next s := rfl

end Sys2Proof.Machine
end

