-- ==== Sys2Proof/Laws/PerInstr.lean ====
section
/-! SUPPORT. Statements made per instruction: the family OpField says that an operation is well-formed and that its CMD
carries its `op` code in bits 1:0 and zero in the unconnected bits 7:2 (spec/30_encoding.md R42, R43, R45). -/

namespace Sys2Proof.Laws.OpField

def Statement (i : Instr) : Prop :=
  i.wf = true ∧ Cmd.op (encode i) = i.opCode ∧ (encode i).extractLsb' 2 6 = 0

theorem packCmd_unconnected (g r b : Chan) (hue : Hue) (sat val : Chan) (op : BitVec 2) :
    (packCmd g r b hue sat val op).extractLsb' 2 6 = 0 := by
  unfold packCmd
  simp (disch := decide) only [BitVec.extractLsb'_append_eq_of_le]
  rw [BitVec.extractLsb'_append_eq_of_add_le (by decide), BitVec.extractLsb'_eq_self]
  rfl

theorem conv (hue : Hue) (sat val : Chan) : Statement (.conv hue sat val) :=
  ⟨rfl, packCmd_op .., packCmd_unconnected ..⟩

theorem enc (r g b : Chan) : Statement (.enc r g b) := ⟨rfl, packCmd_op .., packCmd_unconnected ..⟩

theorem convenc (hue : Hue) (sat val : Chan) : Statement (.convenc hue sat val) :=
  ⟨rfl, packCmd_op .., packCmd_unconnected ..⟩

theorem rsvd : Statement .rsvd := ⟨rfl, packCmd_op .., packCmd_unconnected ..⟩

end Sys2Proof.Laws.OpField
end

