-- ==== Sys2Proof/Tests/Slice0.lean ====
section
/-! SUPPORT. Tests. Expected values are the spec's: spec/95_test_vectors.md and the examples of the rules. The witnesses show
states and operands that meet the hypotheses of the statements. -/

namespace Sys2Proof.Tests

open Sys2Proof.Machine

/-- The error, if any, of a result. -/
def rejection {α : Type} (e : Except AsmReject α) : Option AsmReject :=
  match e with
  | .ok _ => none
  | .error r => some r

/-- The lines of a program assembled, none where it is rejected. -/
def linesOf (e : Except AsmReject (List HostLine)) : List HostLine :=
  match e with
  | .ok ls => ls
  | .error _ => []

/-- The machine with settled outputs that show zero, hue 5, its loop at a phase. -/
def settledAt (ph : Phase) : State :=
  { State.reset with
    block := ⟨⟨1, 0, 0, 0, 0, 0, 0⟩, blockF Params.nominal ⟨1, 0, 0, 0, 0, 0, 0⟩, true⟩
    host := { State.reset.host with hue := 5, phase := ph }
    consumer := { State.reset.consumer with awaitDraws := [.ok] } }

/-- The same machine about to perform one line of a program. -/
def running (l : HostLine) : State :=
  (settledAt .compute).mapHost fun h => { h with script := some ⟨[l], 0, 0⟩ }

/-- The same with a transmission in flight. -/
def runningBusy (l : HostLine) (sent : List PulseWord) : State :=
  { running l with consumer := { (running l).consumer with channel := .busy ⟨sent, true⟩ } }

/-- The host awaiting, with a transmission in flight. -/
def awaiting (plan : AwaitDraw) (sent : List PulseWord) : State :=
  { settledAt .transmit with
    host := { (settledAt .transmit).host with suspension := .awaiting plan }
    consumer := { (settledAt .transmit).consumer with channel := .busy ⟨sent, true⟩ } }

/-- What a next state shows of something. -/
def shows {α : Type} (o : Host.Outcome State Fault Refusal) (f : State → α) : Option α :=
  match o with
  | .next s => some (f s)
  | .fault _ => none
  | .refused _ => none

/-- The fault of an outcome. -/
def faultOf (o : Host.Outcome State Fault Refusal) : Option Fault :=
  match o with
  | .next _ => none
  | .fault r => some r
  | .refused _ => none

/-- The refusal of an outcome. -/
def refusalOf (o : Host.Outcome State Fault Refusal) : Option Refusal :=
  match o with
  | .next _ => none
  | .fault _ => none
  | .refused r => some r

/-! ### Well-formedness -/

theorem test_nominal_wf : Params.nominal.wf = true := by decide

/-- Ill-formed: a tick constant of 0 at another clock rate (R7). -/
theorem test_zero_ticks_refused : Params.wf { Params.nominal with ticksPerUs := 40, t0l := 0 } = false := by decide

/-- Ill-formed: other tick constants at 80 ticks per microsecond (R7). -/
theorem test_other_ticks_at_80_refused : Params.wf { Params.nominal with t1h := 65 } = false := by decide

theorem test_asm_hue_refused : (AsmLine.conv (.num 65536) 0 0).wf = false := by decide
theorem test_asm_channel_refused : (AsmLine.enc 0 256 0).wf = false := by decide
theorem test_asm_operand_rejected : rejection (assemble [.convenc (.num 0) 0 300]) = some .operandOutOfRange := by decide
theorem test_asm_label_rejected : rejection (assemble [.jmp 3]) = some (.unknownLabel 3) := by decide
theorem test_asm_twice_rejected : rejection (assemble [.label 1, .tx, .label 1]) = some (.labelTwice 1) := by decide

/-! ### Decoding: words written out from the layout of R42 -/

/-- g=0 r=0 b=0 hue=30 sat=255 val=255, bits 7:2 zero, op=00 (example of R57). -/
theorem test_decode_conv :
    decode (0b00000000#8 ++ 0b00000000#8 ++ 0b00000000#8 ++ 0b0000000000011110#16 ++ 0b11111111#8 ++ 0b11111111#8 ++
      0b000000#6 ++ 0b00#2) = .conv 30 255 255 := by decide

/-- g=0x34 r=0x12 b=0x56, op=01 (V4, order check). -/
theorem test_decode_enc :
    decode (0b00110100#8 ++ 0b00010010#8 ++ 0b01010110#8 ++ 0b0000000000000000#16 ++ 0b00000000#8 ++ 0b00000000#8 ++
      0b000000#6 ++ 0b01#2) = .enc 0x12 0x34 0x56 := by decide

/-- hue=359 sat=255 val=254, op=10, with unread and unconnected bits set (R43, R45). -/
theorem test_decode_convenc :
    decode (0b11111111#8 ++ 0b11111111#8 ++ 0b11111111#8 ++ 0b0000000101100111#16 ++ 0b11111111#8 ++ 0b11111110#8 ++
      0b111111#6 ++ 0b10#2) = .convenc 359 255 254 := by decide

/-- V6: all bits set is the reserved operation. -/
theorem test_decode_rsvd : decode 0xFFFFFFFFFFFFFFFF#64 = .rsvd := by decide

theorem test_encode_enc : encode (.enc 1 128 170) = 0x8001AA0000000001#64 := by decide
theorem test_table_word : decodeTableWord 64 0x00000000D2643202 = some (.convenc 210 100 50) := by decide
theorem test_too_long_rejected : decodeTableWord 72 0 = none := by decide

/-! ### The operations (V2 to V6) -/

theorem test_conv_general :
    shows (exec (.conv 210 100 50) State.reset) (fun t => t.block.out.rgb) = some ⟨30, 40, 50⟩ := by decide

/-- V2: the non-monotone case of R66. -/
theorem test_conv_truncates : hsvToRgb 359 1 255 = ⟨255, 254, 255⟩ := by decide

theorem test_enc_order :
    shows (exec (.enc 0x12 0x34 0x56) State.reset) (fun t => (t.block.out.pw[2], t.block.out.pw[10], t.block.out.pw[24])) =
      some (0x00248040#32, 0x00448020#32, 0#32) := by decide

/-- V3: the largest legal durations. -/
theorem test_pword_largest : pword 32767 32767 = 0x7FFFFFFF#32 := by decide

theorem test_convenc_wrap :
    shows (exec (.convenc 359 255 255) State.reset) (fun t => (t.block.out.rgb, decodeSeq Params.nominal t.block.out.pw)) =
      some (⟨255, 0, 5⟩, 0x00FF05) := by decide

theorem test_rsvd_outputs :
    shows (exec .rsvd State.reset) (fun t => (t.block.out.rgb, t.block.out.pw[0], t.block.out.opErr)) =
      some (⟨0, 0, 0⟩, 0#32, true) := by decide

/-! ### The environment (V7 to V9, P1 to P4) -/

theorem test_hadv_wraps : advanceHue 359 = 0 ∧ advanceHue 58 = 59 := by decide

/-- V8: bytes of a laid-out ENC 255, 0, 0. -/
theorem test_byte_layout :
    let m := Memory.writeWords .little [] 1000 (encodeRgb Params.nominal ⟨255, 0, 0⟩).toList
    m.read 1000 = some 0x20 ∧ m.read 1001 = some 0x80 ∧ m.read 1002 = some 0x44 ∧ m.read 1003 = some 0 ∧
      m.read 1032 = some 0x40 ∧ m.read 1034 = some 0x24 ∧ m.read 1099 = some 0 ∧ m.read 1100 = none := by decide

/-- V9: a consumer read of `pw[25]`, and of the last word. -/
theorem test_read_25_refused :
    refusalOf (step (running (.readWord 25))) = some (.noSuchPulseWord 25) ∧
      shows (step (running (.readWord 24))) (fun t => t.consumer.readData) = some 0 := by decide

theorem test_transmit_busy_faults : faultOf (step (runningBusy .tx [])) = some .transmitWhileBusy := by decide

theorem test_input_change_busy_faults : faultOf (step (runningBusy (.issue 0x0#64) [])) = some .inputChangedWhileBusy := by
  decide

theorem test_await_idle_faults : faultOf (step (running .await)) = some .awaitWithoutTransmission := by decide

theorem test_program_end_faults :
    faultOf (step ((running .tx).mapHost fun h => { h with script := some ⟨[], 0, 0⟩ })) = some .programEnded := by decide

/-- V9: the reserved operation marks the program. -/
theorem test_reserved_marks_program : shows (step (running (.issue 3))) (fun t => (t.host.atFault, t.block.out.opErr)) =
    some (true, true) := by decide

/-- The host's placing of a word: the very next step after reset issues it. -/
theorem test_withFetchWord :
    shows (step (State.reset.withFetchWord 64 0x00FF000000000001)) (fun t => (t.block.out.rgb, t.block.settled)) =
      some (⟨255, 0, 0⟩, true) := by decide

/-- P1, line 1: the first step after reset. -/
theorem test_first_step : shows (step State.reset) (fun t => (t.block.out.rgb, t.host.phase)) =
    some (⟨255, 0, 0⟩, .transmit) := by decide

/-- P4: a fault under `halt` stops the host with `H` kept; its code is 1 (R85). -/
theorem test_fault_halts : shows (step (awaiting (.fault 7 0) [])) (fun t => (t.host.halted, t.host.hue)) = some (true, 5) ∧
    TxResult.code (.fault 7) = some 1 ∧ TxResult.code .ok = none := by decide

/-- P4: the same fault under `retry` goes to the reset delay. -/
theorem test_fault_retries :
    shows (step { awaiting (.fault 7 0) [] with params := { Params.nominal with faultPolicy := .retry } })
      (fun t => (t.host.halted, t.host.phase, t.host.retrying, t.host.hue)) = some (false, .resetDelay, true, 5) := by decide

/-- P4 in a program: after the fault and the reset delay the host is back at the line of its last issued operation. -/
theorem test_program_retries :
    shows (step (((awaiting (.fault 7 0) []).mapHost fun h =>
        { h with suspension := .sleeping (.us 280), retrying := true, script := some ⟨[.hadv, .issue 3, .tx], 2, 1⟩ })))
      (fun t => (t.host.script.map Script.pos, t.host.retrying, t.host.hue)) = some (some 1, false, 5) := by decide

/-- R79: during a transmission the line is left low after a data word. -/
theorem test_line_level : State.lineLevel (awaiting .ok [0x00248040#32]) = false ∧
    wordPulses 0x00448020#32 = [⟨true, 32⟩, ⟨false, 68⟩] := by decide

/-- P5, lines 1 and 2, assembled. -/
theorem test_assemble :
    linesOf (assemble [.label 0, .conv (.num 210) 100 50, .enchue .hostHue, .jmp 0]) =
      [.issue 0x00000000D2643200#64, .issueHue .convenc 255 255, .jmp 0] := by decide

theorem test_jump : shows (step (running (.jmp 4))) (fun t => t.host.script.map Script.pos) = some (some 4) := by decide

/-! ### Witnesses: the hypotheses of the statements are met -/

/-- For DecodeSelectsOperationByOp, EncodeDecodeClearsIgnoredBits, OpErrExactlyForReserved. -/
theorem witness_op_values : (0x1EFFFF00#64 : Cmd).toNat % 4 = 0 ∧ (0xFFFFFFFFFFFFFFFD#64 : Cmd).toNat % 4 = 1 ∧
    (0x2#64 : Cmd).toNat % 4 = 2 ∧ (0xFFFFFFFFFFFFFFFF#64 : Cmd).toNat % 4 = 3 := by decide

/-- For ConvRunsAndAnswers, EncRunsAndAnswers, ConvencRunsAndAnswers, ReservedOperationAnswersZero. -/
theorem witness_op_fields : Cmd.op 0x1EFFFF00#64 = 0 ∧ Cmd.op 0xFFFFFFFFFFFFFFFD#64 = 1 ∧ Cmd.op 0x2#64 = 2 ∧
    Cmd.op 0x3#64 = 3 := by decide

/-- For DecodeSelectsOperationByOp. -/
theorem witness_bundle_ops : (InBundle.ofCmd 0#64).op = 0 ∧ (InBundle.ofCmd 1#64).op = 1 ∧ (InBundle.ofCmd 2#64).op = 2 ∧
    (InBundle.ofCmd 3#64).op = 3 := by decide

/-- For UnconnectedBitsAreIgnored. -/
theorem witness_unconnected_bits :
    (0x1EFFFFFC#64 : Cmd) ≠ 0x1EFFFF00#64 ∧ ∀ i < 64, i < 2 ∨ 8 ≤ i →
      (0x1EFFFFFC#64 : Cmd).getLsbD i = (0x1EFFFF00#64 : Cmd).getLsbD i := by decide

/-- For HsvToRgbIsTheStatedFunction and RegionAndRemainderOfHue, at the boundaries of the regions. -/
theorem witness_regions : 0 / 60 = 0 ∧ 59 / 60 = 0 ∧ 60 / 60 = 1 ∧ 119 / 60 = 1 ∧ 120 / 60 = 2 ∧ 180 / 60 = 3 ∧ 240 / 60 = 4 ∧
    300 / 60 = 5 ∧ 359 / 60 = 5 ∧ (65535#16 : Hue).toNat % 360 = 15 := by decide

/-- For LevelsAndTheirFactors. -/
theorem witness_levels : (255 ≤ 255 ∧ 359 < 360 ∧ hueRem 359 = 354) ∧ hueRem 60 = 0 := by decide

/-- For SequenceRoundTrip. -/
theorem witness_build : Params.nominal.t1h ≠ Params.nominal.t0h := by decide

/-- For EncodedSequenceWordByWord, EncodedSequenceShape, WordsCarryGreenRedBlue. -/
theorem witness_word_indices : 0 < 24 ∧ 23 < 24 ∧ 0 < 8 ∧ 7 < 8 := by decide

/-- For AnswersDoNotDependOnState. -/
theorem witness_same_build : (settledAt .compute).params = State.reset.params ∧ settledAt .compute ≠ awaiting .ok [] := by
  decide

/-- For StepRunsDecodedOperation and ReservedIssueMarksTheProgram: a host about to issue with the channel idle, and one that issues what already stands on the inputs while it is busy. -/
theorem witness_issue : (running (.issue 3)).nextCmd = some 3 ∧ (running (.issue 3)).consumer.channel = .idle ∧
    (runningBusy (.issue 1) []).nextCmd = some 1 ∧ InBundle.ofCmd 1 = (runningBusy (.issue 1) []).block.inp := by decide

/-- For InputChangeWhileBusyFaults. -/
theorem witness_input_change : (runningBusy (.issue 3) []).consumer.channel = .busy ⟨[], true⟩ ∧
    InBundle.ofCmd 3 ≠ (runningBusy (.issue 3) []).block.inp ∧ (runningBusy (.issue 3) []).nextCmd = some 3 ∧
    (runningBusy (.drive 3) []).host.action = some (.drive 3) ∧ (runningBusy (.drive 3) []).host.halted = false ∧
    (runningBusy (.drive 3) []).host.suspension = .running := by decide

/-- For OutputsAreDrawsUntilSettled, DataWordsOnTheLine. -/
theorem witness_unsettled : State.reset.block.settled = false ∧ State.reset.consumer.channel = .idle ∧
    (⟨3, 0, 0, 0, 0, 0, 0⟩ : InBundle) ≠ State.reset.block.inp ∧ 24 < 25 := by decide

/-- For OutputsAreDrawsUntilSettled, HueAdvanceWraps, TransmitNeedsAnIdleChannel, ReadBeyondTheSequenceIsRefused, SleepSuspendsThenResumes, ConsumerReadsAreIdempotent. -/
theorem witness_actions : (running .settle).host.action = some .settle ∧ (running .hadv).host.action = some .hadv ∧
    (running .tx).host.action = some .tx ∧ (running .transmit).host.action = some .transmit ∧
    (running (.readWord 25)).host.action = some (.readWord 25) ∧ (running (.sleepUs 280)).host.action = some (.sleepUs 280) ∧
    (running (.sleepMs 10)).host.action = some (.sleepMs 10) ∧ (running .tx).host.halted = false ∧
    (running .tx).host.suspension = .running ∧ (running .hadv).host.hue < 360 ∧ (running .tx).block.settled = true := by
  decide

/-- For HueAdvanceWraps at 359. -/
theorem witness_hue_boundary :
    ((running .hadv).mapHost fun h => { h with hue := 359 }).host.action = some .hadv ∧
      ((running .hadv).mapHost fun h => { h with hue := 359 }).host.hue = 359 := by decide

/-- For TransmitNeedsAnIdleChannel on a busy channel. -/
theorem witness_transmit_busy : (runningBusy .transmit []).host.action = some .transmit ∧
    (runningBusy .transmit []).consumer.channel = .busy ⟨[], true⟩ := by decide

/-- For ConsumerSendsInIndexOrder: the first data word, and the terminator after 24 of them. -/
theorem witness_sending : (awaiting .ok []).block.out.pw[0] ≠ 0 ∧
    (awaiting .ok (List.replicate 24 0x00448020#32)).block.out.pw[24] = 0 ∧ AwaitDraw.cutsAt .ok 0 = false ∧
    (awaiting .ok []).host.suspension = .awaiting .ok ∧ (awaiting .ok []).host.halted = false := by decide

/-- For TransmissionSendsTheDataWords. -/
theorem witness_whole_transmission : (awaiting .ok []).consumer.channel = .busy ⟨[], true⟩ ∧
    (awaiting .ok []).block.out.pw = encodeRgb (awaiting .ok []).params ⟨0, 0, 0⟩ ∧
    ({ awaiting .ok [] with block := ⟨⟨3, 0, 0, 0, 0, 0, 0⟩, rsvdOut, true⟩ } : State).block.out.pw = Vector.replicate 25 0 := by
  decide

/-- For EveryAwaitOutcomeIsAdmitted. -/
theorem witness_await_outcomes : (running .tx).consumer.awaitDraws = [.ok] ∧ (running .tx).consumer.channel = .idle ∧
    (runningBusy .await []).host.action = some .await ∧ (runningBusy .await []).consumer.channel ≠ .idle := by decide

/-- For HostLoopFiveSteps, LoopIterationSendsTheFrame. -/
theorem witness_loop : (settledAt .compute).host.script = none ∧ (settledAt .compute).host.retrying = false ∧
    (settledAt .compute).host.halted = false ∧ (settledAt .compute).host.suspension = .running ∧
    (settledAt .compute).consumer.channel = .idle ∧ (settledAt .compute).consumer.awaitDraws = .ok :: [] ∧
    (settledAt .transmit).host.phase = .transmit ∧ (settledAt .resetDelay).host.phase = .resetDelay ∧
    (settledAt .advance).host.phase = .advance ∧ (settledAt .cosmeticDelay).host.phase = .cosmeticDelay := by decide

/-- For LoopFramesFollowTheHueRamp. -/
theorem witness_hue_ramp :
    let s := (settledAt .compute).mapHost fun h => { h with hue := 0 }
    s.consumer.awaitDraws = List.replicate 1 .ok ++ [] ∧ s.host.hue = 0 ∧ s.host.phase = .compute ∧
      s.host.script = none ∧ s.host.retrying = false ∧ s.host.halted = false ∧ s.host.suspension = .running ∧
      s.consumer.channel = .idle := by decide

/-- For TransmissionFaultHaltsOrRetries, OnlyATransmissionFaultHalts. -/
theorem witness_fault : (awaiting (.fault 7 1) [1]).host.suspension = .awaiting (.fault 7 1) ∧
    (awaiting (.fault 7 1) [1]).consumer.channel = .busy ⟨[1], true⟩ ∧ (awaiting (.fault 7 1) [1]).params.faultPolicy = .halt ∧
    (awaiting (.fault 7 1) [1]).host.script = none ∧ 1 ≤ [1].length ∧
    ({ awaiting (.fault 7 1) [1] with params := { Params.nominal with faultPolicy := .retry } } : State).params.faultPolicy =
      .retry := by decide

/-- For TransmissionFaultHaltsOrRetries where the fault comes at the end of the words: at the terminator, and after 25 words. -/
theorem witness_fault_at_end :
    (awaiting (.fault 7 30) (List.replicate 24 0x00448020#32)).consumer.channel =
      .busy ⟨List.replicate 24 0x00448020#32, true⟩ ∧
    ((awaiting (.fault 7 30) (List.replicate 24 0x00448020#32)).sampleWord true 24).1 = 0 ∧
    25 ≤ (List.replicate 25 0x00448020#32).length ∧ ¬(30 ≤ (List.replicate 25 0x00448020#32).length) := by decide

/-- The same machine running the program of a repeated CYCLE under `retry`, a fault and then `Ok` in store. -/
def cycleUnderRetry : State :=
  { settledAt .compute with
    params := { Params.nominal with faultPolicy := .retry }
    host := { (settledAt .compute).host with
      script := some ⟨[Phase.compute.line, .tx, .sleepUs 280, .hadv, .sleepMs 10, .jmp 0], 0, 0⟩ }
    consumer := { (settledAt .compute).consumer with awaitDraws := [.fault 7 3, .ok] } }

/-- For TransmissionFaultHaltsOrRetries in a program, and CycleProgramRepeatsTheFrame. -/
theorem witness_cycle_program :
    cycleUnderRetry.host.script = some ⟨linesOf (assemble [.label 0, .cycle, .jmp 0]), 0, 0⟩ ∧
    rejection (assemble [.label 0, .cycle, .jmp 0]) = none ∧
    cycleUnderRetry.host.retrying = false ∧ cycleUnderRetry.host.halted = false ∧
    cycleUnderRetry.host.suspension = .running ∧ cycleUnderRetry.params.faultPolicy = .retry ∧
    cycleUnderRetry.consumer.channel = .idle ∧ cycleUnderRetry.consumer.awaitDraws = .fault 7 3 :: .ok :: [] ∧
    cycleUnderRetry.host.hue = 5 := by decide

/-- For CycleProgramSimulatesTheLoop: the premise on awaits, in a build under `retry` whose step is a fault. -/
theorem witness_awaits_in_transmit :
    ({ awaiting (.fault 7 0) [] with params := cycleUnderRetry.params } : State).awaitsInTransmit :=
  fun _ _ => ⟨rfl, fun _ => rfl⟩

/-- For LaidOutSequenceBytes: the big-endian clause at the last byte of the last word, settled and not. -/
theorem witness_lay_out :
    ({ running (.layOut 9) with params := { Params.nominal with byteOrder := .big } } : State).params.byteOrder = .big ∧
    (running (.layOut 9)).params.byteOrder = .little ∧ (running (.layOut 9)).host.action = some (.layOut 9) ∧
    (running (.layOut 9)).block.settled = true ∧ State.reset.block.settled = false ∧ 24 < 25 ∧ 3 < 4 := by decide

/-- For JumpContinuesAtTheLine. -/
theorem witness_jump : (running (.jmp 4)).host.action = some (.jmp 4) ∧ (running (.jmp 4)).host.halted = false ∧
    (running (.jmp 4)).host.suspension = .running := by decide

/-- For JumpsResolveToTheLineAfterTheLabel: two lines stand before label 7, and the jump to it comes after. -/
theorem witness_label :
    rejection (assemble ([.hadv, .tx] ++ .label 7 :: [.rsvd, .jmp 7])) = none ∧
    [AsmLine.hadv, .tx] ++ .label 7 :: [.rsvd, .jmp 7] = [.hadv, .tx, .label 7, .rsvd] ++ .jmp 7 :: [] := by decide

/-- A transmission from unsettled outputs, some words sent. -/
def awaitingUnclean (sent : List PulseWord) : State :=
  { awaiting .ok [] with consumer := { (awaiting .ok []).consumer with channel := .busy ⟨sent, false⟩ } }

/-- For UnsettledTransmissionSendsDraws: before the first word, before the last, and after it. -/
theorem witness_unclean : (awaitingUnclean []).consumer.channel = .busy ⟨[], false⟩ ∧
    (awaitingUnclean []).host.suspension = .awaiting .ok ∧ (awaitingUnclean []).host.halted = false ∧
    AwaitDraw.cutsAt .ok 24 = false ∧ (List.replicate 24 (1 : PulseWord)).length < 25 ∧
    25 ≤ (List.replicate 25 (1 : PulseWord)).length := by decide

/-- For DrivingThePresentBundleIsNoChange. -/
theorem witness_present_bundle : InBundle.ofCmd 1 = (runningBusy (.drive 1) []).block.inp ∧
    (runningBusy (.drive 1) []).host.action = some (.drive 1) ∧ (runningBusy (.drive 1) []).host.halted = false ∧
    (runningBusy (.drive 1) []).host.suspension = .running := by decide

/-- For RepeatedFrameStartsAtTheLastIssue: a step that issues, and one that does not. -/
theorem witness_frame_start : (running (.issue 3)).nextCmd = some 3 ∧ (running .tx).nextCmd = none ∧
    (running .tx).host.script = some ⟨[.tx], 0, 0⟩ ∧
    (shows (step (running (.issue 3))) fun t => t.host.script) = some (some ⟨[.issue 3], 1, 0⟩) ∧
    (shows (step (running .tx)) fun t => t.host.script) = some (some ⟨[.tx], 0, 0⟩) := by decide

/-- For HaltedHostHasNoStep. -/
theorem witness_halted : (State.reset.mapHost fun h => { h with halted := true }).host.halted = true := rfl

/-- For the statements about every step that answers a next state, and for CycleProgramSimulatesTheLoop: steps of the consumer, of a sleeping host, and of each action. -/
theorem witness_steps : (shows (step (awaiting .ok [])) fun t => t.draws) = some 1 ∧
    (shows (step (settledAt .resetDelay)) fun t => t.host.suspension) = some (.sleeping (.us 280)) ∧
    (shows (step ((settledAt .cosmeticDelay).mapHost (HostAgent.sleep (.ms 10)))) fun t => t.host.phase) = some .compute ∧
    (shows (step (settledAt .advance)) fun t => t.host.hue) = some 6 ∧
    (shows (step (settledAt .transmit)) fun t => t.consumer.channel) = some (.busy ⟨[], true⟩) ∧
    (shows (step (running (.layOut 0))) fun t => t.consumer.buffer.length) = some 100 ∧
    (shows (step (running (.drive 3))) fun t => t.block.settled) = some false ∧
    (shows (step (running .settle)) fun t => t.block.settled) = some true := by decide

/-- For StepKeepsTheInvariant: the invariant holds in a state that steps to a next state. -/
theorem witness_invariant : (settledAt .transmit).Inv where
  hueInRange := by decide
  outputsAreF := by intro _; rfl
  awaitHasTransmission := trivial
  haltedLeavesIdle := by intro h; cases h
  sentInOrder := trivial
  retryOnlyUnderRetry := by intro h; cases h
  awaitsInTransmit := by intro _ h; cases h
  bufferCanonical := by decide
  framesNeverSendZero := by intro f hf; cases hf

end Sys2Proof.Tests
end

/-! ### What each shared operation leaves unchanged

One lemma per operation, read off its inversion lemma: which agents it does not touch, and the one it does. -/

namespace Sys2Proof.Machine

section
variable {s s' : State}

/-- Driving touches the block's ports only. -/
theorem drive_frame {b : InBundle} (h : drive b s = .next s') :
    s'.params = s.params ∧ s'.host = s.host ∧ s'.consumer = s.consumer := by
  rcases drive_next h with ⟨-, rfl⟩ | ⟨-, -, rfl⟩
  · exact ⟨rfl, rfl, rfl⟩
  · exact ⟨rfl, rfl, rfl⟩

/-- An issue leaves the ports at its bundle and `F` of it, settled, and does not touch the consumer (R12, R27). -/
theorem issue_frame {cmd : Cmd} (h : issue cmd s = .next s') :
    s'.params = s.params ∧ s'.consumer = s.consumer ∧
      s'.block = ⟨InBundle.ofCmd cmd, blockF s.params (InBundle.ofCmd cmd), true⟩ := by
  obtain ⟨s1, h1, rfl⟩ := issue_next h
  obtain ⟨hp, -, hc⟩ := drive_frame h1
  exact ⟨hp, hc, by simp [drive_next_inp h1, hp]⟩

/-- Starting a transmission touches the channel only, which was `idle` (R99). -/
theorem startTransmit_frame (h : startTransmit s = .next s') :
    s'.params = s.params ∧ s'.block = s.block ∧ s.consumer.channel = .idle ∧
      s'.consumer.channel = .busy ⟨[], s.block.settled⟩ ∧ s'.consumer.frames = s.consumer.frames := by
  obtain ⟨hidle, rfl⟩ := startTransmit_next h
  exact ⟨rfl, rfl, hidle, rfl, rfl⟩

/-- Entering `awaitCompletion` moves neither the ports nor the channel. -/
theorem startAwait_frame (h : startAwait s = .next s') :
    s'.params = s.params ∧ s'.block = s.block ∧ s'.consumer.channel = s.consumer.channel ∧
      s'.consumer.frames = s.consumer.frames := by
  obtain ⟨-, rfl⟩ := startAwait_next h
  simp

/-- A read by index touches `readData` and the count of draws only (R34). -/
theorem readPulseWord_frame {k : Nat} (h : readPulseWord k s = .next s') :
    s'.params = s.params ∧ s'.block = s.block ∧ s'.host = s.host ∧
      s'.consumer.channel = s.consumer.channel ∧ s'.consumer.frames = s.consumer.frames ∧
      s'.consumer.buffer = s.consumer.buffer := by
  obtain ⟨hk, rfl⟩ := readPulseWord_next h
  simp

/-- A step of the consumer does not touch the ports (R35). -/
theorem awaitStep_frame {plan : AwaitDraw} (h : awaitStep plan s = .next s') :
    s'.params = s.params ∧ s'.block = s.block := by
  obtain ⟨x, -, rfl | ⟨hk, ⟨-, rfl⟩ | ⟨-, rfl⟩⟩⟩ := awaitStep_next h
  · exact ⟨rfl, rfl⟩
  · simp
  · simp

/-- A step of the consumer puts the transmission on record and leaves the channel `idle`, or sends one more word of it. -/
theorem awaitStep_channel {plan : AwaitDraw} (h : awaitStep plan s = .next s') :
    ∃ x, s.consumer.channel = .busy x ∧
      ((s'.consumer.channel = .idle ∧ s'.consumer.frames = s.consumer.frames ++ [⟨x.sent, plan.result⟩]) ∨
        ∃ w, s'.consumer.channel = .busy ⟨x.sent ++ [w], x.clean⟩ ∧ s'.consumer.frames = s.consumer.frames) := by
  obtain ⟨x, hx, rfl | ⟨hk, ⟨-, rfl⟩ | ⟨-, rfl⟩⟩⟩ := awaitStep_next h
  · exact ⟨x, hx, .inl ⟨rfl, rfl⟩⟩
  · exact ⟨x, hx, .inl (by simp)⟩
  · exact ⟨x, hx, .inr ⟨_, rfl, by simp⟩⟩

/-- A line of the running host changes no build parameter, and moves the ports only where it issues, drives or settles. -/
theorem lineStep_ports {l : HostLine} (h : lineStep l s = .next s') :
    s'.params = s.params ∧
      (s'.block = s.block ∨
        (∃ w, s.host.lineCmd l = some w ∧
          s'.block = ⟨InBundle.ofCmd w, blockF s.params (InBundle.ofCmd w), true⟩) ∨
        (∃ w, l = .drive w ∧ s'.block.inp = InBundle.ofCmd w) ∨
        (l = .settle ∧ s'.block = ⟨s.block.inp, blockF s.params s.block.inp, true⟩)) := by
  rcases lineStep_next h with ⟨w, hw, h1⟩ | ⟨w, s1, rfl, h1, rfl⟩ | ⟨rfl, rfl⟩ | ⟨s1, rfl, h1, h2⟩ |
    ⟨s1, rfl, h1, rfl⟩ | ⟨rfl, h1⟩ | ⟨n, rfl, rfl⟩ | ⟨n, rfl, rfl⟩ | ⟨rfl, rfl⟩ | ⟨n, rfl, rfl⟩ |
    ⟨k, s1, rfl, h1, rfl⟩ | ⟨b, rfl, rfl⟩
  · obtain ⟨hp, -, hb⟩ := issue_frame h1
    exact ⟨hp, .inr (.inl ⟨w, hw, hb⟩)⟩
  · obtain ⟨hp, -, -⟩ := drive_frame h1
    exact ⟨hp, .inr (.inr (.inl ⟨w, rfl, drive_next_inp (s' := s1) h1⟩))⟩
  · exact ⟨rfl, .inr (.inr (.inr ⟨rfl, rfl⟩))⟩
  · obtain ⟨hp1, hb1, -⟩ := startTransmit_frame h1
    obtain ⟨hp2, hb2, -⟩ := startAwait_frame h2
    exact ⟨hp2.trans hp1, .inl (hb2.trans hb1)⟩
  · obtain ⟨hp, hb, -⟩ := startTransmit_frame h1
    exact ⟨hp, .inl hb⟩
  · obtain ⟨hp, hb, -⟩ := startAwait_frame h1
    exact ⟨hp, .inl hb⟩
  · exact ⟨rfl, .inl rfl⟩
  · exact ⟨rfl, .inl rfl⟩
  · exact ⟨rfl, .inl rfl⟩
  · exact ⟨rfl, .inl rfl⟩
  · obtain ⟨hp, hb, -⟩ := readPulseWord_frame h1
    exact ⟨hp, .inl hb⟩
  · exact ⟨layOut_params b s, .inl (layOut_block b s)⟩

/-- A line of the running host records no frame, and moves the channel only by starting a transmission. -/
theorem lineStep_channel {l : HostLine} (h : lineStep l s = .next s') :
    s'.consumer.frames = s.consumer.frames ∧
      (s'.consumer.channel = s.consumer.channel ∨
        (l = .tx ∨ l = .transmit) ∧ s.consumer.channel = .idle ∧
          s'.consumer.channel = .busy ⟨[], s.block.settled⟩) := by
  rcases lineStep_next h with ⟨w, -, h1⟩ | ⟨w, s1, -, h1, rfl⟩ | ⟨-, rfl⟩ | ⟨s1, hl, h1, h2⟩ |
    ⟨s1, hl, h1, rfl⟩ | ⟨-, h1⟩ | ⟨n, -, rfl⟩ | ⟨n, -, rfl⟩ | ⟨-, rfl⟩ | ⟨n, -, rfl⟩ |
    ⟨k, s1, -, h1, rfl⟩ | ⟨b, -, rfl⟩
  · obtain ⟨-, hc, -⟩ := issue_frame h1
    exact ⟨congrArg Consumer.frames hc, .inl (congrArg Consumer.channel hc)⟩
  · obtain ⟨-, -, hc⟩ := drive_frame h1
    exact ⟨congrArg Consumer.frames hc, .inl (congrArg Consumer.channel hc)⟩
  · exact ⟨rfl, .inl rfl⟩
  · obtain ⟨-, -, hidle, hbusy, hf1⟩ := startTransmit_frame h1
    obtain ⟨-, -, hc, hf2⟩ := startAwait_frame h2
    exact ⟨hf2.trans hf1, .inr ⟨.inl hl, hidle, hc.trans hbusy⟩⟩
  · obtain ⟨-, -, hidle, hbusy, hf⟩ := startTransmit_frame h1
    exact ⟨hf, .inr ⟨.inr hl, hidle, hbusy⟩⟩
  · obtain ⟨-, -, hc, hf⟩ := startAwait_frame h1
    exact ⟨hf, .inl hc⟩
  · exact ⟨rfl, .inl rfl⟩
  · exact ⟨rfl, .inl rfl⟩
  · exact ⟨rfl, .inl rfl⟩
  · exact ⟨rfl, .inl rfl⟩
  · obtain ⟨-, -, -, hc, hf, -⟩ := readPulseWord_frame h1
    exact ⟨hf, .inl hc⟩
  · exact ⟨rfl, .inl rfl⟩

end

end Sys2Proof.Machine

/-! ### The invariant, one lemma per shared operation -/

namespace Sys2Proof.Machine

section
variable {s t : State}

theorem awaitHasTransmission_iff :
    s.awaitHasTransmission ↔ ∀ plan, s.host.suspension = .awaiting plan → s.consumer.channel ≠ .idle := by
  unfold State.awaitHasTransmission
  cases s.host.suspension <;> cases s.consumer.channel <;> simp

theorem sentInOrder_of_busy {x : Transmission} (hx : s.consumer.channel = .busy x) :
    s.sentInOrder ↔ x.sent.length ≤ 25 ∧ (∀ w ∈ x.sent, w ≠ 0) ∧
      (x.clean = true → s.block.settled = true ∧ x.sent = s.block.out.pw.toList.take x.sent.length) := by
  simp only [State.sentInOrder, hx]

theorem sentInOrder_of_idle (hx : s.consumer.channel = .idle) : s.sentInOrder := by
  simp only [State.sentInOrder, hx]

/-- From settled outputs a clean transmission reads the word itself (R34, R35). -/
theorem sampleWord_of_settled {k : Fin 25} (h : s.block.settled = true) :
    (s.sampleWord true k).1 = s.block.out.pw[k] := by
  simp [State.sampleWord, h]

/-! #### The block's ports -/

/-- New inputs keep the invariant while the channel is `idle`. -/
theorem State.Inv.after_changeInputs (hs : s.Inv) (hidle : s.consumer.channel = .idle) (b : InBundle) :
    (s.changeInputs b).Inv :=
  { hs with
    outputsAreF := fun h => nomatch h
    sentInOrder := sentInOrder_of_idle hidle }

theorem State.Inv.after_drive {b : InBundle} (hs : s.Inv) (h : drive b s = .next t) : t.Inv := by
  rcases drive_next h with ⟨-, rfl⟩ | ⟨-, hidle, rfl⟩
  · exact hs
  · exact hs.after_changeInputs hidle b

/-- Settling shows a clean transmission in flight the outputs it had: they were settled, so they were `F` of the inputs. -/
theorem State.Inv.after_answer (hs : s.Inv) : (s.answer (blockF s.params s.block.inp)).Inv := by
  refine { hs with outputsAreF := fun _ => rfl, sentInOrder := ?_ }
  cases hc : s.consumer.channel with
  | idle => exact sentInOrder_of_idle hc
  | busy x =>
    obtain ⟨hlen, hnz, hclean⟩ := (sentInOrder_of_busy hc).1 hs.sentInOrder
    refine (sentInOrder_of_busy (s := s.answer _) hc).2 ⟨hlen, hnz, fun hx => ⟨rfl, ?_⟩⟩
    obtain ⟨hset, hsent⟩ := hclean hx
    rwa [hs.outputsAreF hset] at hsent

/-! #### The host -/

/-- A move of a host that is not halted keeps the invariant if it keeps the hue in range, neither halts the host nor makes
it await, and starts no retry. -/
theorem State.Inv.after_mapHost {f : HostAgent → HostAgent} (hs : s.Inv) (hhue : (f s.host).hue < 360)
    (hhalt : (f s.host).halted = false) (hretry : (f s.host).retrying = true → s.host.retrying = true)
    (hawait : ∀ plan, (f s.host).suspension ≠ .awaiting plan) : (s.mapHost f).Inv :=
  { hs with
    hueInRange := hhue
    awaitHasTransmission := awaitHasTransmission_iff.2 fun plan h => absurd h (hawait plan)
    haltedLeavesIdle := fun h => absurd (hhalt.symm.trans h) (by decide)
    retryOnlyUnderRetry := fun h => hs.retryOnlyUnderRetry (hretry h)
    awaitsInTransmit := fun plan h => absurd h (hawait plan) }

theorem State.Inv.after_proceed (hs : s.Inv) (hrun : s.host.halted = false) : (s.mapHost HostAgent.proceed).Inv :=
  hs.after_mapHost (by simpa using hs.hueInRange) (by simpa using hrun) (by simp) (by simp)

theorem State.Inv.after_sleep (hs : s.Inv) (hrun : s.host.halted = false) (d : Duration) :
    (s.mapHost (HostAgent.sleep d)).Inv :=
  hs.after_mapHost hs.hueInRange hrun id (by simp)

theorem State.Inv.after_wake (hs : s.Inv) (hrun : s.host.halted = false) : (s.mapHost HostAgent.wake).Inv :=
  hs.after_mapHost (by simpa using hs.hueInRange) (by simpa using hrun) (by simp) (by simp)

theorem State.Inv.after_jump (hs : s.Inv) (hrun : s.host.halted = false) (hsusp : s.host.suspension = .running) (n : Nat) :
    (s.mapHost (HostAgent.jump n)).Inv :=
  hs.after_mapHost (by simpa using hs.hueInRange) (by simpa using hrun) (by simp) (by simp [hsusp])

theorem advanceHue_lt (h : Nat) : advanceHue h < 360 := Nat.mod_lt _ (by decide)

theorem State.Inv.after_hueAdvance (hs : s.Inv) (hrun : s.host.halted = false) :
    (s.mapHost fun h => ({ h with hue := advanceHue h.hue } : HostAgent).proceed).Inv :=
  hs.after_mapHost (by simpa using advanceHue_lt _) (by simpa using hrun) (by simp) (by simp)

theorem State.Inv.after_issue {cmd : Cmd} (hs : s.Inv) (hrun : s.host.halted = false) (h : issue cmd s = .next t) :
    t.Inv := by
  obtain ⟨s1, h1, rfl⟩ := issue_next h
  obtain ⟨-, hh, -⟩ := drive_frame h1
  rw [← drive_next_inp h1]
  have hs2 := (hs.after_drive h1).after_answer
  exact hs2.after_mapHost (by simpa using hs2.hueInRange) (by simpa [hh] using hrun) (by simp) (by simp)

/-! #### The consumer -/

/-- The invariant speaks of neither `readData` nor `awaitDraws` nor the count of draws, and of the buffer only that it is in
canonical form. -/
theorem State.Inv.of_frame (hs : s.Inv) (hp : t.params = s.params) (hb : t.block = s.block) (hh : t.host = s.host)
    (hc : t.consumer.channel = s.consumer.channel) (hf : t.consumer.frames = s.consumer.frames)
    (hm : t.consumer.buffer.wf) : t.Inv := by
  obtain ⟨params, block, host, ⟨channel, frames, buffer, readData, awaitDraws⟩, draws⟩ := t
  subst hp hb hh hc hf
  exact { hs with bufferCanonical := hm }

theorem State.Inv.after_sampleWord (hs : s.Inv) (c : Bool) (k : Fin 25) : (s.sampleWord c k).2.Inv :=
  hs.of_frame (by simp) (by simp) (by simp) (by simp) (by simp) (by simpa using hs.bufferCanonical)

theorem State.Inv.after_readPulseWord {k : Nat} (hs : s.Inv) (h : readPulseWord k s = .next t) : t.Inv := by
  obtain ⟨hp, hb, hh, hc, hf, hm⟩ := readPulseWord_frame h
  exact hs.of_frame hp hb hh hc hf (hm ▸ hs.bufferCanonical)

theorem State.Inv.after_layOut (hs : s.Inv) (base : Nat) : (s.layOut base).Inv :=
  hs.of_frame (by simp) (by simp) (by simp) rfl rfl (writeWords_wf _ _ _ _ hs.bufferCanonical)

/-- `transmit` of a host that runs: nothing has been sent yet, and a halted host is not one that runs. -/
theorem State.Inv.after_startTransmit (hs : s.Inv) (hrun : s.host.halted = false) (h : startTransmit s = .next t) :
    t.Inv := by
  obtain ⟨-, rfl⟩ := startTransmit_next h
  exact { hs with
    awaitHasTransmission := awaitHasTransmission_iff.2 fun _ _ h => nomatch h
    haltedLeavesIdle := fun h => absurd (hrun.symm.trans h) (by decide)
    sentInOrder := (sentInOrder_of_busy rfl).2 ⟨Nat.zero_le _, by simp, fun hset => ⟨hset, rfl⟩⟩ }

/-- Entering `awaitCompletion`, which a host in its loop does at step 2 only. -/
theorem State.Inv.after_startAwait (hs : s.Inv) (hrun : s.host.halted = false) (hretry : s.host.retrying = false)
    (hphase : s.host.script = none → s.host.phase = .transmit) (h : startAwait s = .next t) : t.Inv := by
  obtain ⟨⟨x, hx⟩, rfl⟩ := startAwait_next h
  exact {
    hueInRange := by simpa using hs.hueInRange
    outputsAreF := by simpa [State.outputsAreF] using hs.outputsAreF
    awaitHasTransmission := awaitHasTransmission_iff.2 (by simp [hx])
    haltedLeavesIdle := by simp [hrun]
    sentInOrder := by simpa [State.sentInOrder] using hs.sentInOrder
    retryOnlyUnderRetry := by simp [hretry]
    awaitsInTransmit := fun _ _ => by simpa [hretry] using hphase
    bufferCanonical := by simpa using hs.bufferCanonical
    framesNeverSendZero := by simpa using hs.framesNeverSendZero }

/-- After an await the host retries only if it did before or the policy says so (R100). -/
theorem retrying_of_afterAwait {p : FaultPolicy} {r : TxResult} {h : HostAgent}
    (hr : (h.afterAwait p r).retrying = true) : h.retrying = true ∨ p = .retry := by
  cases r with
  | ok => exact .inl (by simpa [HostAgent.afterAwait] using hr)
  | fault cause => simpa [HostAgent.afterAwait] using hr

/-- The end of a transmission: the words sent are never zero, so the frame on record has none either; a fault halts or
retries as the policy says. -/
theorem State.Inv.after_endTransmission {x : Transmission} (hs : s.Inv) (hx : s.consumer.channel = .busy x)
    (plan : AwaitDraw) : (s.endTransmission x plan).Inv := by
  obtain ⟨hlen, hnz, -⟩ := (sentInOrder_of_busy hx).1 hs.sentInOrder
  exact { hs with
    hueInRange := by simpa using hs.hueInRange
    awaitHasTransmission := awaitHasTransmission_iff.2 (by simp)
    haltedLeavesIdle := fun _ => ⟨rfl, by simp⟩
    sentInOrder := trivial
    retryOnlyUnderRetry := fun h => (retrying_of_afterAwait h).elim hs.retryOnlyUnderRetry id
    awaitsInTransmit := fun _ h => absurd h (by simp)
    framesNeverSendZero := by
      intro f hf
      rcases List.mem_append.1 hf with hf | hf
      · exact hs.framesNeverSendZero f hf
      · obtain rfl := List.mem_singleton.1 hf
        exact ⟨hlen, hnz⟩ }

/-- A word sent: if the transmission is clean, the next one of the settled output array. -/
theorem State.Inv.after_sendWord {x : Transmission} (hs : s.Inv) (hx : s.consumer.channel = .busy x)
    (hk : x.sent.length < 25) {w : PulseWord} (hw : w ≠ 0)
    (hnext : x.clean = true → s.block.settled = true → w = s.block.out.pw[x.sent.length]) :
    (s.sendWord x w).Inv := by
  obtain ⟨hlen, hnz, hclean⟩ := (sentInOrder_of_busy hx).1 hs.sentInOrder
  refine { hs with
    awaitHasTransmission := awaitHasTransmission_iff.2 fun _ _ h => nomatch h
    haltedLeavesIdle := fun h => absurd (hx.symm.trans (hs.haltedLeavesIdle h).1) (by simp)
    sentInOrder := (sentInOrder_of_busy rfl).2 ⟨?_, ?_, ?_⟩ }
  · simpa using hk
  · intro v hv
    rcases List.mem_append.1 hv with hv | hv
    · exact hnz v hv
    · exact List.mem_singleton.1 hv ▸ hw
  · intro hc
    obtain ⟨hset, hsent⟩ := hclean hc
    refine ⟨hset, ?_⟩
    rw [sendWord_block, List.length_append, List.length_singleton,
      List.take_succ_eq_append_getElem (by simpa using hk), Vector.getElem_toList, ← hsent, hnext hc hset]

theorem State.Inv.after_awaitStep {plan : AwaitDraw} (hs : s.Inv) (h : awaitStep plan s = .next t) : t.Inv := by
  obtain ⟨x, hx, rfl | ⟨hk, ⟨-, rfl⟩ | ⟨hw, rfl⟩⟩⟩ := awaitStep_next h
  · exact hs.after_endTransmission hx plan
  · exact (hs.after_sampleWord _ _).after_endTransmission (by simpa using hx) plan
  · refine (hs.after_sampleWord _ _).after_sendWord (by simpa using hx) hk hw fun hc hset => ?_
    rw [sampleWord_block] at hset
    simp [hc, sampleWord_of_settled hset]

/-! #### The step -/

/-- A host about to transmit or await is not about to sleep off a fault, and in its loop it is at step 2 (R96, R100). -/
theorem action_tx_or_await {h : HostAgent} (ha : h.action = some .tx ∨ h.action = some .await) :
    h.retrying = false ∧ (h.script = none → h.phase = .transmit) := by
  unfold HostAgent.action at ha
  cases hr : h.retrying with
  | true => simp [hr] at ha
  | false =>
    refine ⟨rfl, fun hscript => ?_⟩
    cases hp : h.phase <;> simp [hr, hscript, hp, Phase.line] at ha ⊢

theorem State.Inv.after_lineStep {l : HostLine} (hs : s.Inv) (hrun : s.host.halted = false)
    (hsusp : s.host.suspension = .running) (hl : s.host.action = some l) (h : lineStep l s = .next t) : t.Inv := by
  rcases lineStep_next h with ⟨w, -, h1⟩ | ⟨w, s1, -, h1, rfl⟩ | ⟨-, rfl⟩ | ⟨s1, rfl, h1, h2⟩ |
    ⟨s1, -, h1, rfl⟩ | ⟨rfl, h1⟩ | ⟨n, -, rfl⟩ | ⟨n, -, rfl⟩ | ⟨-, rfl⟩ | ⟨n, -, rfl⟩ |
    ⟨k, s1, -, h1, rfl⟩ | ⟨b, -, rfl⟩
  · exact hs.after_issue hrun h1
  · obtain ⟨-, hh, -⟩ := drive_frame h1
    exact (hs.after_drive h1).after_proceed (hh ▸ hrun)
  · exact hs.after_answer.after_proceed hrun
  · obtain ⟨hretry, hphase⟩ := action_tx_or_await (.inl hl)
    obtain ⟨-, rfl⟩ := startTransmit_next h1
    exact (hs.after_startTransmit hrun h1).after_startAwait hrun hretry hphase h2
  · obtain ⟨-, rfl⟩ := startTransmit_next h1
    exact (hs.after_startTransmit hrun h1).after_proceed hrun
  · obtain ⟨hretry, hphase⟩ := action_tx_or_await (.inr hl)
    exact hs.after_startAwait hrun hretry hphase h1
  · exact hs.after_sleep hrun _
  · exact hs.after_sleep hrun _
  · exact hs.after_hueAdvance hrun
  · exact hs.after_jump hrun hsusp n
  · obtain ⟨-, -, hh, -⟩ := readPulseWord_frame h1
    exact (hs.after_readPulseWord h1).after_proceed (hh ▸ hrun)
  · exact (hs.after_layOut b).after_proceed (by simpa using hrun)

end

/-- Settles O46: each shared operation keeps the invariant, and a step is one of them. -/
theorem stepKeepsTheInvariant : Obligations.StepKeepsTheInvariant := by
  intro s t hs h
  obtain ⟨hrun, ⟨plan, -, h1⟩ | ⟨d, -, rfl⟩ | ⟨hsusp, l, hl, h1⟩⟩ := step_next h
  · exact hs.after_awaitStep h1
  · exact hs.after_wake hrun
  · exact hs.after_lineStep hrun hsusp hl h1

/-- Settles O47: after reset the channel is idle, the host runs, nothing has settled and nothing is on record. -/
theorem resetHasTheInvariant : Obligations.ResetHasTheInvariant where
  hueInRange := by decide
  outputsAreF := fun h => nomatch h
  awaitHasTransmission := trivial
  haltedLeavesIdle := fun h => nomatch h
  sentInOrder := trivial
  retryOnlyUnderRetry := fun h => nomatch h
  awaitsInTransmit := fun _ h => nomatch h
  bufferCanonical := .nil
  framesNeverSendZero := fun _ h => nomatch h

end Sys2Proof.Machine

/-! ### What a step changes -/

namespace Sys2Proof.Machine

/-- A running host with an action that issues a CMD issues it next. -/
theorem nextCmd_of_lineCmd {s : State} {l : HostLine} {w : Cmd} (hrun : s.host.halted = false)
    (hsusp : s.host.suspension = .running) (hl : s.host.action = some l) (hw : s.host.lineCmd l = some w) :
    s.nextCmd = some w := by
  simp [State.nextCmd, hrun, hsusp, hl, hw]

/-- Settles O49: neither the consumer, nor waking, nor any line of the host writes a parameter. -/
theorem noStepChangesTheParameters : Obligations.NoStepChangesTheParameters := by
  intro s t h
  obtain ⟨-, ⟨plan, -, h1⟩ | ⟨d, -, rfl⟩ | ⟨-, l, -, h1⟩⟩ := step_next h
  · exact (awaitStep_frame h1).1
  · rfl
  · exact (lineStep_ports h1).1

/-- Settles O50: only a line of the running host can move the ports, and only one that issues, drives or settles. -/
theorem onlyTheHostMovesTheBlockPorts : Obligations.OnlyTheHostMovesTheBlockPorts := by
  intro s t h
  obtain ⟨hrun, ⟨plan, -, h1⟩ | ⟨d, -, rfl⟩ | ⟨hsusp, l, hl, h1⟩⟩ := step_next h
  · exact .inl (awaitStep_frame h1).2
  · exact .inl rfl
  · obtain ⟨-, hb | ⟨w, hw, hb⟩ | ⟨w, rfl, hb⟩ | ⟨rfl, hb⟩⟩ := lineStep_ports h1
    · exact .inl hb
    · exact .inr (.inl ⟨w, nextCmd_of_lineCmd hrun hsusp hl hw, hb⟩)
    · exact .inr (.inr (.inl ⟨w, hl, hb⟩))
    · exact .inr (.inr (.inr ⟨hl, hb⟩))

/-- Settles O51: the consumer's step alone ends a transmission and records it, a line of the host alone starts one. -/
theorem channelAndRecordOfFrames : Obligations.ChannelAndRecordOfFrames := by
  intro s t h
  obtain ⟨-, ⟨plan, hplan, h1⟩ | ⟨d, -, rfl⟩ | ⟨-, l, hl, h1⟩⟩ := step_next h
  · obtain ⟨x, hx, ⟨hidle, hf⟩ | ⟨w, hbusy, hf⟩⟩ := awaitStep_channel h1
    · simp [hx, hidle, hf, hplan]
    · simp [hx, hbusy, hf]
  · refine ⟨fun x hidle hbusy => ?_, fun x hbusy hidle => ?_, .inl rfl⟩
    · exact nomatch hidle.symm.trans hbusy
    · exact nomatch hbusy.symm.trans hidle
  · obtain ⟨hf, hc | ⟨htx, hidle, hbusy⟩⟩ := lineStep_channel h1
    · refine ⟨fun x hidle hbusy => ?_, fun x hbusy hidle => ?_, .inl hf⟩
      · exact nomatch hidle.symm.trans (hc.symm.trans hbusy)
      · exact nomatch hbusy.symm.trans (hc.symm.trans hidle)
    · refine ⟨fun x _ hx => ⟨?_, ?_⟩, fun x hx => (nomatch hx.symm.trans hidle), .inl hf⟩
      · exact (Channel.busy.inj (hbusy.symm.trans hx)).symm
      · exact htx.imp (fun e : l = .tx => e ▸ hl) (fun e : l = .transmit => e ▸ hl)

end Sys2Proof.Machine

/-! ### What an operation answers -/

namespace Sys2Proof.Machine

/-- `op_err` is a function of `op` alone (R17). -/
theorem blockF_opErr (p : Params) (b : InBundle) : (blockF p b).opErr = opErrOf b.op := by
  rcases op_cases b.op with h | h | h | h <;>
    simp [blockF, h, convOut, encOut, convencOut, rsvdOut]

theorem opErrOf_op (w : Cmd) : opErrOf (Cmd.op w) = true ↔ w.toNat % 4 = 3 := by
  rw [opErrOf, beq_iff_eq]
  exact op_eq_iff w 3 (by decide)

/-- Settles O24: the answer to a CMD is `F` of its bundle, whose `op_err` is a function of `op` alone. -/
theorem opErrExactlyForReserved : Obligations.OpErrExactlyForReserved := by
  intro w s
  refine ⟨_, exec_decode w s, ?_, fun w' hw' => ⟨_, exec_decode w' _, ?_⟩⟩
  · rw [answer_block, blockF_opErr]
    exact opErrOf_op w
  · rw [answer_block, blockF_opErr]
    exact Bool.eq_false_iff.2 fun h => hw' ((opErrOf_op w').1 h)

/-- Settles O25: CONV and RSVD read nothing of the state, ENC and CONVENC its build parameters only. -/
theorem answersDoNotDependOnState : Obligations.AnswersDoNotDependOnState := by
  intro i s s' hp
  cases i with
  | conv hue sat val => exact ⟨_, _, rfl, rfl, rfl⟩
  | enc r g b => exact ⟨_, _, rfl, rfl, congrArg (encOut · r g b) hp⟩
  | convenc hue sat val => exact ⟨_, _, rfl, rfl, congrArg (convencOut · hue sat val) hp⟩
  | rsvd => exact ⟨_, _, rfl, rfl, rfl⟩

/-- Settles O42: reset leaves the host about to issue CONVENC of hue 0, which is red. -/
theorem resetState : Obligations.ResetState := by
  have hred : hsvToRgb 0 255 255 = ⟨255, 0, 0⟩ := by decide
  exact ⟨rfl, rfl, rfl, rfl, rfl, _, rfl, rfl, hred, congrArg (encodeRgb Params.nominal) hred⟩

end Sys2Proof.Machine

/-! ### The consumer's words and its buffer

What the consumer reads, sends and lays out from settled outputs, and which steps touch the buffer. -/

namespace Sys2Proof.Machine

section
variable {s s' : State}

/-! #### Reads by index -/

/-- From settled outputs a clean sample draws nothing (R32, R34). -/
theorem sampleWord_eq_of_settled (hset : s.block.settled = true) (k : Fin 25) :
    s.sampleWord true k = (s.block.out.pw[k], s) := by
  simp [State.sampleWord, hset]

/-- A read of settled outputs shows word `k` on `readData` and changes nothing else (R34). -/
theorem readPulseWord_of_settled (hset : s.block.settled = true) {k : Nat} (hk : k < 25) :
    readPulseWord k s = .next { s with consumer := { s.consumer with readData := s.block.out.pw[k] } } := by
  rw [readPulseWord, dif_pos hk, sampleWord_eq_of_settled hset]
  rfl

/-- What an earlier read left on `readData` does not matter to a read (R34). -/
theorem readPulseWord_after_read (s : State) (k : Nat) (w : PulseWord) :
    readPulseWord k { s with consumer := { s.consumer with readData := w } } = readPulseWord k s := by
  unfold readPulseWord State.sampleWord
  split
  · dsimp only
    split <;> rfl
  · rfl

/-- There is no word of index 25 or above (R33). -/
theorem readPulseWord_of_ge {k : Nat} (hk : 25 ≤ k) : readPulseWord k s = .refused (.noSuchPulseWord k) :=
  dif_neg (Nat.not_lt.2 hk)

/-! #### A clean transmission -/

/-- The step of a clean transmission after `n` words, no fault due: a zero word ends it, any other is sent (R35, R36). -/
theorem awaitStep_of_settled {plan : AwaitDraw} {t : Transmission} {n : Nat} (hset : s.block.settled = true)
    (hc : s.consumer.channel = .busy t) (hclean : t.clean = true) (hlen : t.sent.length = n) (hn : n < 25)
    (hcut : plan.cutsAt n = false) :
    awaitStep plan s = .next (if s.block.out.pw[n] = 0 then s.endTransmission t plan
      else s.sendWord t s.block.out.pw[n]) := by
  subst hlen
  simp only [awaitStep, hc, hcut, dif_pos hn, hclean, sampleWord_eq_of_settled hset]
  exact (apply_ite Host.Outcome.next _ _ _).symm

/-- `s` with the first `n` words of its output array sent by a clean transmission. -/
def State.sentFirst (n : Nat) (s : State) : State :=
  { s with consumer := { s.consumer with channel := .busy ⟨s.block.out.pw.toList.take n, true⟩ } }

theorem sendWord_sentFirst (s : State) {n : Nat} (hn : n < 25) :
    (s.sentFirst n).sendWord ⟨s.block.out.pw.toList.take n, true⟩ s.block.out.pw[n] = s.sentFirst (n + 1) := by
  have htake : s.block.out.pw.toList.take (n + 1) = s.block.out.pw.toList.take n ++ [s.block.out.pw[n]] := by
    rw [List.take_succ_eq_append_getElem (by simpa using hn), Vector.getElem_toList]
  simp only [State.sentFirst, State.sendWord, htake]

/-- The step after the first `n` words of settled outputs, with no fault due (R35, R36). -/
theorem step_sentFirst {plan : AwaitDraw} (hrun : s.host.halted = false) (hplan : s.host.suspension = .awaiting plan)
    (hset : s.block.settled = true) {n : Nat} (hn : n < 25) (hcut : plan.cutsAt n = false) :
    step (s.sentFirst n) = .next (if s.block.out.pw[n] = 0
      then s.endTransmission ⟨s.block.out.pw.toList.take n, true⟩ plan else s.sentFirst (n + 1)) := by
  have hlen : (s.block.out.pw.toList.take n).length = n := List.length_take_of_le (by simpa using hn.le)
  rw [step_awaiting (s := s.sentFirst n) hrun hplan,
    awaitStep_of_settled (s := s.sentFirst n) hset rfl rfl hlen hn hcut, ← sendWord_sentFirst s hn]
  rfl

/-- While no word is zero and no fault is due, `n` steps send the first `n` words (R35). -/
theorem run_sentFirst {plan : AwaitDraw} (hrun : s.host.halted = false) (hplan : s.host.suspension = .awaiting plan)
    (hset : s.block.settled = true) (hc : s.consumer.channel = .busy ⟨[], true⟩) {n : Nat} (hn : n ≤ 25)
    (hcut : ∀ k < n, plan.cutsAt k = false) (hw : ∀ k (hk : k < n), s.block.out.pw[k] ≠ 0) :
    core.run n s = .next (s.sentFirst n) := by
  induction n with
  | zero => simp [run_zero, State.sentFirst, ← hc]
  | succ n ih =>
    have hfirst := ih (by omega) (fun k hk => hcut k (by omega)) fun k hk => hw k (by omega)
    have hstep := step_sentFirst hrun hplan hset hn (hcut n n.lt_succ_self)
    rw [if_neg (hw n n.lt_succ_self)] at hstep
    rw [run_add n 1 hfirst, run_succ 0 hstep, run_zero]

/-- A clean transmission whose first zero word has index `n`, with no fault due until then, sends the `n` words before it
and ends (R36). -/
theorem run_transmission {plan : AwaitDraw} (hrun : s.host.halted = false) (hplan : s.host.suspension = .awaiting plan)
    (hset : s.block.settled = true) (hc : s.consumer.channel = .busy ⟨[], true⟩) {n : Nat} (hn : n < 25)
    (hcut : ∀ k ≤ n, plan.cutsAt k = false) (hw : ∀ k (hk : k < n), s.block.out.pw[k] ≠ 0)
    (hzero : s.block.out.pw[n] = 0) :
    core.run (n + 1) s = .next (s.endTransmission ⟨s.block.out.pw.toList.take n, true⟩ plan) := by
  have hfirst := run_sentFirst hrun hplan hset hc hn.le (fun k hk => hcut k hk.le) hw
  have hstep := step_sentFirst hrun hplan hset hn (hcut n le_rfl)
  rw [if_pos hzero] at hstep
  rw [run_add n 1 hfirst, run_succ 0 hstep, run_zero]

/-! #### The buffer -/

/-- Byte-wise reading of a word as a number (R29). -/
theorem extractByte_eq_ofNat (w : PulseWord) (n : Nat) : w.extractLsb' n 8 = BitVec.ofNat 8 (w.toNat / 2 ^ n) := by
  rw [BitVec.extractLsb', Nat.shiftRight_eq_div_pow]

/-- Word `k` of a sampled sequence: the word itself once settled, else a draw (R32, R109). -/
theorem sampleSeq_get (s : State) {k : Nat} (hk : k < 25) :
    s.sampleSeq.1[k] = if s.block.settled then s.block.out.pw[k] else Config.drawWord s.draws k := by
  unfold State.sampleSeq
  split <;> simp [drawnOut]

@[simp] theorem sampleSeq_draws (s : State) :
    s.sampleSeq.2.draws = if s.block.settled then s.draws else s.draws + 1 := by
  unfold State.sampleSeq
  split <;> rfl

@[simp] theorem layOut_draws (b : Nat) (s : State) :
    (s.layOut b).draws = if s.block.settled then s.draws else s.draws + 1 :=
  sampleSeq_draws s

/-- Byte `i` of word `k` of a laid-out sequence (R29). -/
theorem read_layOut_inside (s : State) (base : Nat) {k i : Nat} (hk : k < 25) (hi : i < 4) :
    (s.layOut base).consumer.buffer.read (base + 4 * k + i) =
      some (wordByte s.params.byteOrder s.sampleSeq.1[k] i) := by
  have hword : (base + 4 * k + i - base) / 4 = k := by omega
  have hbyte : (base + 4 * k + i - base) % 4 = i := by omega
  rw [layOut_buffer, read_writeWords, if_pos (by simp; omega), hword, hbyte, List.getD_eq_getElem _ _ (by simpa),
    Vector.getElem_toList]

/-- The 100 bytes laid are the only ones that change (R29). -/
theorem read_layOut_outside (s : State) (base : Nat) {a : Nat} (ha : a < base ∨ base + 100 ≤ a) :
    (s.layOut base).consumer.buffer.read a = s.consumer.buffer.read a := by
  rw [layOut_buffer, read_writeWords, if_neg (by simp; omega)]

theorem startTransmit_buffer (h : startTransmit s = .next s') : s'.consumer.buffer = s.consumer.buffer := by
  obtain ⟨-, rfl⟩ := startTransmit_next h
  rfl

theorem startAwait_buffer (h : startAwait s = .next s') : s'.consumer.buffer = s.consumer.buffer := by
  obtain ⟨-, rfl⟩ := startAwait_next h
  exact suspendInAwait_buffer s

theorem awaitStep_buffer {plan : AwaitDraw} (h : awaitStep plan s = .next s') :
    s'.consumer.buffer = s.consumer.buffer := by
  obtain ⟨x, -, rfl | ⟨hk, ⟨-, rfl⟩ | ⟨-, rfl⟩⟩⟩ := awaitStep_next h <;> simp

/-- A line of the running host leaves the buffer alone, or lays a sequence into it. -/
theorem lineStep_buffer {l : HostLine} (h : lineStep l s = .next s') :
    s'.consumer.buffer = s.consumer.buffer ∨
      ∃ base, l = .layOut base ∧ s'.consumer.buffer = (s.layOut base).consumer.buffer := by
  rcases lineStep_next h with ⟨w, -, h1⟩ | ⟨w, s1, -, h1, rfl⟩ | ⟨-, rfl⟩ | ⟨s1, -, h1, h2⟩ |
    ⟨s1, -, h1, rfl⟩ | ⟨-, h1⟩ | ⟨n, -, rfl⟩ | ⟨n, -, rfl⟩ | ⟨-, rfl⟩ | ⟨n, -, rfl⟩ |
    ⟨k, s1, -, h1, rfl⟩ | ⟨b, hl, rfl⟩
  · obtain ⟨-, hc, -⟩ := issue_frame h1
    exact .inl (congrArg Consumer.buffer hc)
  · obtain ⟨-, -, hc⟩ := drive_frame h1
    exact .inl (congrArg Consumer.buffer hc)
  · exact .inl rfl
  · exact .inl ((startAwait_buffer h2).trans (startTransmit_buffer h1))
  · have hm := startTransmit_buffer h1
    exact .inl hm
  · exact .inl (startAwait_buffer h1)
  · exact .inl rfl
  · exact .inl rfl
  · exact .inl rfl
  · exact .inl rfl
  · obtain ⟨-, -, -, -, -, hm⟩ := readPulseWord_frame h1
    exact .inl hm
  · exact .inr ⟨b, hl, rfl⟩

end

/-- Settles O32: a byte of the buffer is read back from the words laid, which are the sampled sequence. -/
theorem laidOutSequenceBytes : Obligations.LaidOutSequenceBytes := by
  intro s base
  refine ⟨fun k i hk hi => ?_, fun a ha => read_layOut_outside s base ha, layOut_block base s, layOut_host base s, rfl,
    layOut_draws base s, fun hrun hsusp hl => step_running hrun hsusp hl⟩
  rw [read_layOut_inside s base hk hi, sampleSeq_get s hk]
  cases s.params.byteOrder <;> exact congrArg some (extractByte_eq_ofNat _ _)

/-- Settles O35: the first zero word has index 24 in an encoded sequence and index 0 in an all-zero one. -/
theorem transmissionSendsTheDataWords : Obligations.TransmissionSendsTheDataWords := by
  intro s hrun hplan hset hc
  refine ⟨fun c hpw => ?_, fun hpw => ?_⟩
  · have hdata : ∀ k (hk : k < 24), s.block.out.pw[k] ≠ 0 := fun k hk => by
      simpa [hpw, encodeRgb_get, hk] using bitWord_ne_zero _ _
    have hend : s.block.out.pw[24] = 0 := by simp [hpw, encodeRgb_get]
    exact ⟨_, run_transmission hrun hplan hset hc (by decide) (fun _ _ => rfl) hdata hend, rfl,
      by simp [hpw, AwaitDraw.result], rfl, rfl⟩
  · have hend : s.block.out.pw[0] = 0 := by simp [hpw]
    exact ⟨_, run_transmission hrun hplan hset hc (by decide) (fun _ _ => rfl) (by simp) hend, rfl, rfl⟩

/-- Settles O52: the consumer's step, waking and every line but `layOut` leave the buffer alone. -/
theorem onlyLayingOutChangesTheBuffer : Obligations.OnlyLayingOutChangesTheBuffer := by
  intro s t h
  obtain ⟨-, ⟨plan, -, h1⟩ | ⟨d, -, rfl⟩ | ⟨-, l, hl, h1⟩⟩ := step_next h
  · exact .inl (awaitStep_buffer h1)
  · exact .inl rfl
  · obtain hm | ⟨base, rfl, hm⟩ := lineStep_buffer h1
    · exact .inl hm
    · exact .inr ⟨base, hl, fun a ha => hm ▸ read_layOut_outside s base ha⟩

/-- Settles O30: a read shows its word on `readData` alone, so the next read finds the same outputs. -/
theorem consumerReadsAreIdempotent : Obligations.ConsumerReadsAreIdempotent := by
  intro s j k hj hk hset
  have hagain (w : PulseWord) {i : Nat} (hi : i < 25) :=
    (readPulseWord_after_read s i w).trans (readPulseWord_of_settled hset hi)
  exact ⟨_, _, readPulseWord_of_settled hset hk, rfl, hagain _ hj, rfl, rfl, hagain _ hk⟩

/-- Settles O31: the step of the line `readWord` is the read, which is refused. -/
theorem readBeyondTheSequenceIsRefused : Obligations.ReadBeyondTheSequenceIsRefused := by
  intro s k hk
  refine ⟨readPulseWord_of_ge hk, fun hrun hsusp hl => ?_⟩
  rw [step_running hrun hsusp hl, lineStep, readPulseWord_of_ge hk, andThen]

/-- Settles O34: the step of a host that awaits is the consumer's, at the word after those sent. -/
theorem consumerSendsInIndexOrder : Obligations.ConsumerSendsInIndexOrder := by
  intro s plan sent hlen hrun hplan hset hc hcut
  rw [step_awaiting hrun hplan, awaitStep_of_settled hset hc rfl rfl hlen hcut]
  refine ⟨fun hw => ?_, fun hw => ?_⟩
  · rw [if_neg hw]
    rfl
  · rw [if_pos hw]
    exact ⟨_, rfl, rfl, rfl, rfl⟩

end Sys2Proof.Machine

/-! ### The CMD format

The decode by `op`, the fields as numbers, the word put together from its fields, and the bits that are no field. -/

namespace Sys2Proof

/-! #### Decoding by `op` -/

section
variable {w : Cmd}

theorem op_of_toNat_mod {k : Nat} (hk : k < 4) (h : w.toNat % 4 = k) : Cmd.op w = BitVec.ofNat 2 k :=
  (op_eq_iff w k hk).2 h

theorem decode_of_op_zero (h : Cmd.op w = 0) : decode w = .conv (Cmd.hue w) (Cmd.sat w) (Cmd.val w) := if_pos h

theorem decode_of_op_one (h : Cmd.op w = 1) : decode w = .enc (Cmd.r w) (Cmd.g w) (Cmd.b w) := by
  simp [decode, h]

theorem decode_of_op_two (h : Cmd.op w = 2) : decode w = .convenc (Cmd.hue w) (Cmd.sat w) (Cmd.val w) := by
  simp [decode, h]

theorem decode_of_op_three (h : Cmd.op w = 3) : decode w = .rsvd := by
  simp [decode, h]

end

/-- Settles O3: the word packed for an operation carries its `op` code and each operand in its field. -/
theorem decodeEncodeRoundTrip : Obligations.DecodeEncodeRoundTrip := by
  intro i
  cases i with
  | conv hue sat val =>
    rw [encode, decode_of_op_zero (packCmd_op ..), packCmd_hue, packCmd_sat, packCmd_val]
  | enc r g b =>
    rw [encode, decode_of_op_one (packCmd_op ..), packCmd_r, packCmd_g, packCmd_b]
  | convenc hue sat val =>
    rw [encode, decode_of_op_two (packCmd_op ..), packCmd_hue, packCmd_sat, packCmd_val]
  | rsvd =>
    rw [encode, decode_of_op_three (packCmd_op ..)]

/-! #### Bits outside the fields -/

/-- A CMD is its fields and the unconnected bits 7:2 one after another (R42). -/
theorem cmd_eq_append (w : Cmd) : w = Cmd.g w ++ Cmd.r w ++ Cmd.b w ++ Cmd.hue w ++ Cmd.sat w ++ Cmd.val w ++
    w.extractLsb' 2 6 ++ Cmd.op w := by
  simp only [Cmd.g, Cmd.r, Cmd.b, Cmd.hue, Cmd.sat, Cmd.val, Cmd.op]
  repeat rw [BitVec.extractLsb'_append_extractLsb'_eq_extractLsb' (by decide)]
  exact BitVec.extractLsb'_eq_self.symm

/-- A mask that clears bits 7:2, field by field. -/
theorem cmd_and_packCmd (w : Cmd) (g r b : Chan) (hue : Hue) (sat val : Chan) (op : BitVec 2) :
    w &&& packCmd g r b hue sat val op = packCmd (Cmd.g w &&& g) (Cmd.r w &&& r) (Cmd.b w &&& b) (Cmd.hue w &&& hue)
      (Cmd.sat w &&& sat) (Cmd.val w &&& val) (Cmd.op w &&& op) := by
  conv_lhs => rw [cmd_eq_append w]
  rw [packCmd, packCmd]
  repeat rw [BitVec.and_append]
  rw [BitVec.and_zero]

/-- Settles O4: masking field by field keeps the fields the operation reads and makes the others 0, as `encode` does. -/
theorem encodeDecodeClearsIgnoredBits : Obligations.EncodeDecodeClearsIgnoredBits := by
  intro w
  have hhsv : 0x000000FFFFFFFF03#64 = packCmd 0 0 0 0xFFFF 0xFF 0xFF 3 := by decide
  have hrgb : 0xFFFFFF0000000003#64 = packCmd 0xFF 0xFF 0xFF 0 0 0 3 := by decide
  have hall (x : Chan) : x &&& 0xFF#8 = x := BitVec.and_allOnes
  have hall' (x : Hue) : x &&& 0xFFFF#16 = x := BitVec.and_allOnes
  refine ⟨?_, fun h => ?_, fun h => ?_⟩
  · rw [hhsv, cmd_and_packCmd]
    rintro (h | h)
    · have hop : Cmd.op w = 0 := op_of_toNat_mod (by decide) h
      simp [decode_of_op_zero hop, encode, hop, hall, hall']
    · have hop : Cmd.op w = 2 := op_of_toNat_mod (by decide) h
      simp [decode_of_op_two hop, encode, hop, hall, hall']
  · have hop : Cmd.op w = 1 := op_of_toNat_mod (by decide) h
    rw [hrgb, cmd_and_packCmd]
    simp [decode_of_op_one hop, encode, hop, hall]
  · rw [decode_of_op_three (op_of_toNat_mod (by decide) h)]
    decide

namespace Machine

/-- A field outside bits 7:2 does not see them. -/
theorem extractLsb'_congr {w w' : Cmd} (h : ∀ i, i < 2 ∨ 8 ≤ i → w.getLsbD i = w'.getLsbD i) {start len : Nat}
    (hfield : start + len ≤ 2 ∨ 8 ≤ start) : w.extractLsb' start len = w'.extractLsb' start len := by
  apply BitVec.eq_of_getLsbD_eq
  intro i hi
  rw [BitVec.getLsbD_extractLsb', BitVec.getLsbD_extractLsb', h (start + i) (by omega)]

theorem ofCmd_congr {w w' : Cmd} (h : ∀ i, i < 2 ∨ 8 ≤ i → w.getLsbD i = w'.getLsbD i) :
    InBundle.ofCmd w = InBundle.ofCmd w' := by
  simp only [InBundle.ofCmd, Cmd.op, Cmd.hue, Cmd.sat, Cmd.val, Cmd.r, Cmd.g, Cmd.b]
  congr 1 <;> exact extractLsb'_congr h (by decide)

/-- The operation is read off the bundle (R43). -/
theorem decode_toCmd_ofCmd (w : Cmd) : decode (InBundle.ofCmd w).toCmd = decode w := by
  simp only [decode, InBundle.ofCmd, InBundle.toCmd, packCmd_op, packCmd_hue, packCmd_sat, packCmd_val, packCmd_r, packCmd_g,
    packCmd_b]

/-- Settles O2: the operation, the issue and the host's going on are functions of the bundle, which has no bit 7:2. -/
theorem unconnectedBitsAreIgnored : Obligations.UnconnectedBitsAreIgnored := by
  intro w w' h
  have hbundle := ofCmd_congr h
  have hdecode : decode w = decode w' := by rw [← decode_toCmd_ofCmd w, hbundle, decode_toCmd_ofCmd]
  have hop : Cmd.op w = Cmd.op w' := congrArg InBundle.op hbundle
  refine ⟨hdecode, hbundle, fun s => ?_⟩
  unfold issue HostAgent.afterIssue
  rw [hbundle, hdecode, hop]

/-! #### The block's function by `op` -/

section
variable {p : Params} {b : InBundle}

theorem blockF_of_op_zero (h : b.op = 0) : blockF p b = convOut b.hueIn b.satIn b.valIn := if_pos h

theorem blockF_of_op_one (h : b.op = 1) : blockF p b = encOut p b.rIn b.gIn b.bIn := by
  simp [blockF, h]

theorem blockF_of_op_two (h : b.op = 2) : blockF p b = convencOut p b.hueIn b.satIn b.valIn := by
  simp [blockF, h]

theorem blockF_of_op_three (h : b.op = 3) : blockF p b = rsvdOut := by
  simp [blockF, h]

end

/-- A field as a number (R42). -/
theorem extractLsb'_eq_ofNat_div {n : Nat} (w : BitVec n) (start len : Nat) :
    w.extractLsb' start len = BitVec.ofNat len (w.toNat / 2 ^ start) := by
  rw [BitVec.extractLsb', Nat.shiftRight_eq_div_pow]

/-- Settles O1: `decode` and `F` go by `op`, and each of their rows names the fields it reads. -/
theorem decodeSelectsOperationByOp : Obligations.DecodeSelectsOperationByOp := by
  refine ⟨fun w => ?_, fun p b hue sat val r g bl => ?_⟩
  · simp only [← extractLsb'_eq_ofNat_div]
    exact ⟨fun h => decode_of_op_zero (op_of_toNat_mod (by decide) h),
      fun h => decode_of_op_one (op_of_toNat_mod (by decide) h),
      fun h => decode_of_op_two (op_of_toNat_mod (by decide) h),
      fun h => decode_of_op_three (op_of_toNat_mod (by decide) h)⟩
  · refine ⟨?_, fun h => ?_, fun h => ?_, blockF_of_op_zero, blockF_of_op_one, blockF_of_op_two, blockF_of_op_three⟩
    · rintro (h | h)
      · rw [blockF_of_op_zero h]
        exact blockF_of_op_zero h
      · rw [blockF_of_op_two h]
        exact blockF_of_op_two h
    · rw [blockF_of_op_one h]
      exact blockF_of_op_one h
    · rw [blockF_of_op_three h]
      exact blockF_of_op_three h

end Machine

end Sys2Proof

/-! ### The pulse words of a color -/

namespace Sys2Proof.Machine

@[simp] theorem pwDur0_bitWord (p : Params) (bit : Bool) : pwDur0 (bitWord p bit) = if bit then p.t1h else p.t0h := by
  cases bit <;> simp [bitWord]

@[simp] theorem pwDur1_bitWord (p : Params) (bit : Bool) : pwDur1 (bitWord p bit) = if bit then p.t1l else p.t0l := by
  cases bit <;> simp [bitWord]

/-- No tick constant in range is 0 (R7, R78). -/
theorem ticks_ne_zero {p : Params} (h : p.ticksInRange = true) : p.t1h ≠ 0 ∧ p.t1l ≠ 0 ∧ p.t0h ≠ 0 ∧ p.t0l ≠ 0 := by
  simpa [Params.ticksInRange, Ticks.wf, and_assoc] using h

/-- Settles O12: the durations of a data word are tick constants, and a pulse word has its four fields in their places. -/
theorem pulseWordAssembly : Obligations.PulseWordAssembly := by
  refine ⟨fun p bit hp => ?_, fun dh dl => ?_⟩
  · obtain ⟨h1h, h1l, h0h, h0l⟩ := ticks_ne_zero hp
    rw [pwDur0_bitWord, pwDur1_bitWord]
    cases bit with
    | false => exact ⟨h0h, h0l⟩
    | true => exact ⟨h1h, h1l⟩
  · exact ⟨pword_toNat dh dl, pwDur0_pword dh dl, pwLvl0_pword dh dl, pwDur1_pword dh dl, pwLvl1_pword dh dl⟩

/-- Settles O13: the two words are pulse words of R48's durations. -/
theorem dataWordsAtDocumentedClock : Obligations.DataWordsAtDocumentedClock := by
  have h1 : 0x00248040#32 = pword 64 36 := by decide
  have h0 : 0x00448020#32 = pword 32 68 := by decide
  rw [Obligations.DataWordsAtDocumentedClock, h1, h0]
  simp only [pwDur0_pword, pwDur1_pword, pwLvl0_pword, pwLvl1_pword]
  simp [bitWord, Params.nominal]

/-- The GRB word bit by bit: blue in bits 7:0, red in 15:8, green in 23:16 (R50). -/
theorem grbWord_getLsbD (c : Rgb) {i : Nat} (hi : i < 8) :
    (grbWord c).getLsbD i = c.b.getLsbD i ∧ (grbWord c).getLsbD (8 + i) = c.r.getLsbD i ∧
      (grbWord c).getLsbD (16 + i) = c.g.getLsbD i := by
  have h8 : ¬8 + i < 8 := by omega
  have h16 : ¬16 + i < 8 := by omega
  have h16' : 16 + i - 8 = 8 + i := by omega
  unfold grbWord
  repeat rw [BitVec.getLsbD_append]
  simp [hi, h8, h16, h16']

/-- Settles O15: the bit `23 - k` of the GRB word that word `k` carries, channel by channel. -/
theorem wordsCarryGreenRedBlue : Obligations.WordsCarryGreenRedBlue := by
  intro p c k hk
  obtain ⟨hblue, hred, hgreen⟩ := grbWord_getLsbD c (i := 7 - k) (by omega)
  have hdata {j n : Nat} (hj : j < 24) (hn : 23 - j = n) : (encodeRgb p c)[j] = bitWord p ((grbWord c).getLsbD n) := by
    rw [encodeRgb_get, if_pos hj, hn]
  rw [← hblue, ← hred, ← hgreen]
  exact ⟨hdata (by omega) (by omega), hdata (by omega) (by omega), hdata (by omega) (by omega)⟩

end Sys2Proof.Machine

/-! ### The reserved operation and JMP -/

namespace Sys2Proof.Machine

/-- Settles O22: `op` 3 is the reserved operation, whose answer is a constant. -/
theorem reservedOperationAnswersZero : Obligations.ReservedOperationAnswersZero :=
  ⟨fun _ => decode_of_op_three, fun _ => rfl⟩

/-- On an `idle` channel the host may drive any bundle (R110). -/
theorem drive_of_idle {s : State} (hidle : s.consumer.channel = .idle) (b : InBundle) : ∃ t, drive b s = .next t := by
  unfold drive
  split
  · exact ⟨_, rfl⟩
  · simp [hidle]

/-- A block operation completes once its inputs are driven (R84). -/
theorem issue_of_drive {s s1 : State} {w : Cmd} (h : drive (InBundle.ofCmd w) s = .next s1) :
    issue w s =
      .next ((s1.answer (blockF s1.params (InBundle.ofCmd w))).mapHost (HostAgent.afterIssue w)) := by
  rw [issue, h, andThen, exec_decode, andThen]

/-- Settles O28: the issue drives its bundle, is answered by the reserved row of `F`, and marks the host. -/
theorem reservedIssueMarksTheProgram : Obligations.ReservedIssueMarksTheProgram := by
  intro s w hnext hmod hidle
  obtain ⟨s1, h1⟩ := drive_of_idle hidle (InBundle.ofCmd w)
  obtain ⟨-, hh, -⟩ := drive_frame h1
  have hstep := issue_of_drive h1
  obtain ⟨-, hc, hb⟩ := issue_frame hstep
  have hop : (InBundle.ofCmd w).op = 3 := op_of_toNat_mod (by decide) hmod
  refine ⟨_, (step_issue hnext).trans hstep, ?_, congrArg Block.inp hb, congrArg Block.settled hb,
    (congrArg Block.out hb).trans (blockF_of_op_three hop), hc, ?_⟩
  · simp [(opErrOf_op w).2 hmod]
  · simp [hh]

/-- Only a program jumps (R55). -/
theorem script_of_action_jmp {h : HostAgent} {n : Nat} (ha : h.action = some (.jmp n)) :
    h.retrying = false ∧ ∃ p, h.script = some p := by
  cases hr : h.retrying with
  | true => simp [HostAgent.action, hr] at ha
  | false =>
    refine ⟨rfl, ?_⟩
    cases hp : h.script with
    | some p => exact ⟨p, rfl⟩
    | none => cases hph : h.phase <;> simp [HostAgent.action, hr, hp, hph, Phase.line] at ha

/-- Settles O54: the step of a JMP moves the program to its line. -/
theorem jumpContinuesAtTheLine : Obligations.JumpContinuesAtTheLine := by
  intro s n hrun hsusp hl
  obtain ⟨hr, p, hp⟩ := script_of_action_jmp hl
  refine ⟨p, _, hp, step_running hrun hsusp hl, ?_, ?_⟩
  · simp only [State.mapHost, HostAgent.jump, hp]
  · simp [HostAgent.action, HostAgent.jump, hp, hr]

end Sys2Proof.Machine

/-! ### Labels and jumps

An assembled program is its emitted lines in order, so the line after a label is found by counting the program lines before
it. -/

namespace Sys2Proof.Machine

/-- A label is no line of the program; every other expanded line is one (R55). -/
def AsmLine.isLine : AsmLine → Bool
  | .label _ => false
  | _ => true

/-- A line that expansion replaces (R56). -/
def AsmLine.isPseudo : AsmLine → Bool
  | .enchue _ => true
  | .cycle => true
  | _ => false

/-- How many program lines a text stands for. -/
def programLength (ls : List AsmLine) : Nat := (ls.flatMap AsmLine.expand).countP AsmLine.isLine

/-! #### The labels of a program -/

theorem isLine_eq_false {x : AsmLine} (h : x.isLine = false) : ∃ l, x = .label l := by
  cases x with
  | label l => exact ⟨l, rfl⟩
  | _ => cases h

theorem asmLabels_label (m : Nat) (xs : List AsmLine) : asmLabels (.label m :: xs) = m :: asmLabels xs := rfl

theorem asmLabels_line {x : AsmLine} (h : x.isLine = true) (xs : List AsmLine) :
    asmLabels (x :: xs) = asmLabels xs := by
  cases x with
  | label m => cases h
  | _ => rfl

theorem asmLabels_append (xs ys : List AsmLine) : asmLabels (xs ++ ys) = asmLabels xs ++ asmLabels ys := by
  induction xs with
  | nil => rfl
  | cons x xs ih =>
    rw [List.cons_append]
    cases hx : x.isLine with
    | true => rw [asmLabels_line hx, asmLabels_line hx, ih]
    | false =>
      obtain ⟨m, rfl⟩ := isLine_eq_false hx
      rw [asmLabels_label, asmLabels_label, ih, List.cons_append]

/-- Expansion neither adds nor drops a label. -/
theorem asmLabels_expand (xs : List AsmLine) : asmLabels (xs.flatMap AsmLine.expand) = asmLabels xs := by
  induction xs with
  | nil => rfl
  | cons x xs ih =>
    have hx : asmLabels x.expand = asmLabels [x] := by cases x <;> rfl
    rw [List.flatMap_cons, asmLabels_append, hx, ih, ← asmLabels_append]
    rfl

theorem nodup_of_repeatedLabel {ls : List Nat} (h : repeatedLabel ls = none) : ls.Nodup := by
  induction ls with
  | nil => exact .nil
  | cons l ls ih =>
    unfold repeatedLabel at h
    split at h
    · cases h
    · rename_i hl
      exact List.nodup_cons.2 ⟨by simpa using hl, ih h⟩

theorem labelPos_line {x : AsmLine} (h : x.isLine = true) (l : Nat) (xs : List AsmLine) (pos : Nat) :
    labelPos l (x :: xs) pos = labelPos l xs (pos + 1) := by
  cases x with
  | label m => cases h
  | _ => rfl

/-- A label's first place: as many lines on as stand before it (R55). -/
theorem labelPos_append {l : Nat} {xs : List AsmLine} (h : l ∉ asmLabels xs) (ys : List AsmLine) (pos : Nat) :
    labelPos l (xs ++ .label l :: ys) pos = some (pos + xs.countP AsmLine.isLine) := by
  induction xs generalizing pos with
  | nil => simp [labelPos]
  | cons x xs ih =>
    rw [List.cons_append]
    cases hx : x.isLine with
    | true =>
      rw [asmLabels_line hx] at h
      rw [labelPos_line hx, ih h, List.countP_cons_of_pos hx, Nat.add_right_comm, Nat.add_assoc]
    | false =>
      obtain ⟨m, rfl⟩ := isLine_eq_false hx
      rw [asmLabels_label, List.mem_cons, not_or] at h
      obtain ⟨hm, hxs⟩ := h
      rw [labelPos, if_neg (Ne.symm hm), ih hxs, List.countP_cons_of_neg (by simp [hx])]

/-! #### The lines emitted -/

section
variable {whole xs ys : List AsmLine} {lines : List HostLine}

theorem emitAll_cons {x : AsmLine} (h : emitAll whole (x :: xs) = .ok lines) :
    ∃ a b, x.emit whole = .ok a ∧ emitAll whole xs = .ok b ∧ lines = a ++ b := by
  unfold emitAll at h
  split at h
  · split at h
    · exact ⟨_, _, ‹_›, ‹_›, (Except.ok.inj h).symm⟩
    · cases h
    · cases h
  · cases h

theorem emitAll_append (h : emitAll whole (xs ++ ys) = .ok lines) :
    ∃ a b, emitAll whole xs = .ok a ∧ emitAll whole ys = .ok b ∧ lines = a ++ b := by
  induction xs generalizing lines with
  | nil => exact ⟨[], lines, rfl, h, rfl⟩
  | cons x xs ih =>
    have hwf : x.wf = true := by
      by_contra hwf
      simp [emitAll, hwf] at h
    obtain ⟨a, b, ha, hb, rfl⟩ := emitAll_cons h
    obtain ⟨b1, b2, hb1, hb2, rfl⟩ := ih hb
    exact ⟨a ++ b1, b2, by simp [emitAll, hwf, ha, hb1], hb2, by simp⟩

theorem emit_jmp {l : Nat} {a : List HostLine} (h : (AsmLine.jmp l).emit whole = .ok a) :
    ∃ pos, labelPos l whole 0 = some pos ∧ a = [.jmp pos] := by
  simp only [AsmLine.emit] at h
  split at h
  · exact ⟨_, ‹_›, (Except.ok.inj h).symm⟩
  · cases h

/-- An expanded line is one line of the program, a label is none. -/
theorem emit_length {x : AsmLine} {a : List HostLine} (hx : x.isPseudo = false) (h : x.emit whole = .ok a) :
    a.length = [x].countP AsmLine.isLine := by
  cases x with
  | jmp l =>
    obtain ⟨pos, -, rfl⟩ := emit_jmp h
    rfl
  | enchue hue => cases hx
  | cycle => cases hx
  | _ => cases h; rfl

theorem isPseudo_of_mem_expand {x y : AsmLine} (h : y ∈ x.expand) : y.isPseudo = false := by
  cases x with
  | cycle =>
    simp only [AsmLine.expand, List.mem_cons, List.not_mem_nil, or_false] at h
    obtain rfl | rfl | rfl | rfl | rfl := h <;> rfl
  | _ =>
    obtain rfl := List.mem_singleton.1 h
    rfl

theorem emitAll_length (hxs : ∀ x ∈ xs, x.isPseudo = false) (h : emitAll whole xs = .ok lines) :
    lines.length = xs.countP AsmLine.isLine := by
  induction xs generalizing lines with
  | nil => cases h; rfl
  | cons x xs ih =>
    obtain ⟨hx, hxs⟩ := List.forall_mem_cons.1 hxs
    obtain ⟨a, b, ha, hb, rfl⟩ := emitAll_cons h
    rw [List.length_append, emit_length hx ha, ih hxs hb, ← List.countP_append]
    rfl

/-- A text emits its program lines. -/
theorem emitAll_expand_length {ls : List AsmLine} (h : emitAll whole (ls.flatMap AsmLine.expand) = .ok lines) :
    lines.length = programLength ls := by
  refine emitAll_length (fun x hx => ?_) h
  obtain ⟨y, -, hy⟩ := List.mem_flatMap.1 hx
  exact isPseudo_of_mem_expand hy

/-- A jump stands after the program lines before it. -/
theorem emitAll_jmp {before after : List AsmLine} {l pos : Nat} (hpos : labelPos l whole 0 = some pos)
    (h : emitAll whole ((before ++ .jmp l :: after).flatMap AsmLine.expand) = .ok lines) :
    lines[programLength before]? = some (.jmp pos) := by
  rw [List.flatMap_append] at h
  obtain ⟨a, b, ha, hb, rfl⟩ := emitAll_append h
  obtain ⟨c, d, hc, -, rfl⟩ := emitAll_cons hb
  obtain ⟨pos', hpos', rfl⟩ := emit_jmp hc
  obtain rfl := Option.some.inj (hpos.symm.trans hpos')
  simp [← emitAll_expand_length ha]

/-- After a label stand the lines of what follows it. -/
theorem emitAll_label {before after : List AsmLine} {l : Nat}
    (h : emitAll whole ((before ++ .label l :: after).flatMap AsmLine.expand) = .ok lines) :
    emitAll whole (after.flatMap AsmLine.expand) = .ok (lines.drop (programLength before)) := by
  rw [List.flatMap_append] at h
  obtain ⟨a, b, ha, hb, rfl⟩ := emitAll_append h
  obtain ⟨c, d, hc, hd, rfl⟩ := emitAll_cons hb
  cases hc
  have hdrop : (a ++ ([] ++ d)).drop (programLength before) = d := by simp [← emitAll_expand_length ha]
  rw [hdrop]
  exact hd

end

/-- An assembled program has no label twice, and is the lines its expansion emits. -/
theorem assemble_ok {ls : List AsmLine} {lines : List HostLine} (h : assemble ls = .ok lines) :
    (asmLabels ls).Nodup ∧ emitAll (ls.flatMap AsmLine.expand) (ls.flatMap AsmLine.expand) = .ok lines := by
  unfold assemble at h
  split at h
  · cases h
  · exact ⟨nodup_of_repeatedLabel ‹_›, h⟩

/-- Where a label of an assembled program stands. -/
theorem labelPos_of_nodup {before after : List AsmLine} {l : Nat}
    (h : (asmLabels (before ++ .label l :: after)).Nodup) :
    labelPos l ((before ++ .label l :: after).flatMap AsmLine.expand) 0 = some (programLength before) := by
  have hl : l ∉ asmLabels (before.flatMap AsmLine.expand) := by
    rw [asmLabels_append, asmLabels_label] at h
    rw [asmLabels_expand]
    exact fun hmem => List.disjoint_of_nodup_append h hmem List.mem_cons_self
  rw [List.flatMap_append]
  exact (labelPos_append hl _ 0).trans (congrArg some (Nat.zero_add _))

/-- Settles O55: the label stands once, so every jump to it resolves to the count of the program lines before it, and the
lines emitted from there on are those of what follows. -/
theorem jumpsResolveToTheLineAfterTheLabel : Obligations.JumpsResolveToTheLineAfterTheLabel := by
  intro before after l lines h count
  obtain ⟨hnodup, hemit⟩ := assemble_ok h
  have hcount (ls : List AsmLine) : count ls = programLength ls := List.countP_eq_length_filter.symm
  simp only [hcount]
  refine ⟨fun before' after' heq => emitAll_jmp (after := after') (labelPos_of_nodup hnodup) ?_, emitAll_label hemit⟩
  exact heq ▸ hemit

end Sys2Proof.Machine

/-! ### A program that repeats CYCLE

The host that runs the program at the line of the loop's step: its moves, then the shared operations, then the step. -/

namespace Sys2Proof.Machine

/-- The lines of `label: CYCLE; JMP label` assembled (R56). -/
def cycleLines : List HostLine :=
  [Phase.compute.line, Phase.transmit.line, Phase.resetDelay.line, Phase.advance.line, Phase.cosmeticDelay.line, .jmp 0]

/-- The line of the repeated CYCLE that performs a step of the loop (R56, R96). -/
def Phase.cyclePos : Phase → Nat
  | .compute => 0
  | .transmit => 1
  | .resetDelay => 2
  | .advance => 3
  | .cosmeticDelay => 4

/-- Where the repeated CYCLE stands while the loop is at a step. After a fault the loop is already at its reset delay, and a
program still at its TX (R100; assumption 10). -/
def HostAgent.cyclePos (h : HostAgent) : Nat := if h.retrying then 1 else h.phase.cyclePos

/-- The host that runs the repeated CYCLE in place of the loop. -/
def HostAgent.asCycle (h : HostAgent) : HostAgent :=
  { h with phase := .compute, script := some ⟨cycleLines, h.cyclePos, 0⟩ }

@[simp] theorem asCycle_hue (h : HostAgent) : h.asCycle.hue = h.hue := rfl

@[simp] theorem asCycle_halted (h : HostAgent) : h.asCycle.halted = h.halted := rfl

@[simp] theorem asCycle_retrying (h : HostAgent) : h.asCycle.retrying = h.retrying := rfl

@[simp] theorem asCycle_suspension (h : HostAgent) : h.asCycle.suspension = h.suspension := rfl

theorem assemble_cycle : assemble [.label 0, .cycle, .jmp 0] = .ok cycleLines := rfl

/-! #### The host's moves -/

section
variable {h : HostAgent}

theorem cycleLines_cyclePos (ph : Phase) : cycleLines[ph.cyclePos]? = some ph.line := by
  cases ph <;> rfl

/-- The program's next action is the loop's. -/
theorem asCycle_action (hscript : h.script = none) : h.asCycle.action = h.action := by
  cases hr : h.retrying with
  | true => simp [HostAgent.action, HostAgent.asCycle, hr]
  | false => simp [HostAgent.action, HostAgent.asCycle, HostAgent.cyclePos, hr, hscript, cycleLines_cyclePos]

/-- After every step of the loop but the last the program goes on to the line of the next. -/
theorem asCycle_proceed (hscript : h.script = none) (hr : h.retrying = false) (hph : h.phase ≠ .cosmeticDelay) :
    h.asCycle.proceed = h.proceed.asCycle := by
  have hpos : h.phase.next.cyclePos = h.phase.cyclePos + 1 := by
    cases hp : h.phase with
    | cosmeticDelay => exact absurd hp hph
    | _ => rfl
  simp [HostAgent.proceed, HostAgent.asCycle, HostAgent.cyclePos, hscript, hr, hpos]

/-- After the last step of the loop the program comes to its JMP, which takes it to its first line. -/
theorem asCycle_proceed_last (hscript : h.script = none) (hr : h.retrying = false) (hph : h.phase = .cosmeticDelay) :
    h.asCycle.proceed.action = some (.jmp 0) ∧ h.asCycle.proceed.jump 0 = h.proceed.asCycle := by
  constructor
  · simp [HostAgent.proceed, HostAgent.asCycle, HostAgent.cyclePos, HostAgent.action, hr, hph, Phase.cyclePos, cycleLines]
  · simp [HostAgent.proceed, HostAgent.asCycle, HostAgent.cyclePos, HostAgent.jump, hscript, hr, hph, Phase.cyclePos,
      Phase.next]

theorem asCycle_afterIssue (hscript : h.script = none) (hr : h.retrying = false) (hph : h.phase = .compute) (w : Cmd) :
    h.asCycle.afterIssue w = (h.afterIssue w).asCycle := by
  simp [HostAgent.afterIssue, HostAgent.proceedFromIssue, HostAgent.asCycle, HostAgent.cyclePos, hscript, hr, hph,
    Phase.cyclePos, Phase.next]

/-- A repeated frame starts at step 1 of the loop, and at the line of the program's one operation. -/
theorem asCycle_restartFrame (hscript : h.script = none) : h.asCycle.restartFrame = h.restartFrame.asCycle := by
  simp [HostAgent.restartFrame, HostAgent.asCycle, HostAgent.cyclePos, hscript, Phase.cyclePos]

/-- Waking: after the last sleep of the loop the program has its JMP to perform besides. -/
theorem asCycle_wake (hscript : h.script = none) :
    h.asCycle.wake = h.wake.asCycle ∨
      h.asCycle.wake.action = some (.jmp 0) ∧ h.asCycle.wake.jump 0 = h.wake.asCycle := by
  cases hr : h.retrying with
  | true =>
    have hwake : h.wake = h.restartFrame := if_pos hr
    have hwake' : h.asCycle.wake = h.asCycle.restartFrame := if_pos hr
    rw [hwake, hwake']
    exact .inl (asCycle_restartFrame hscript)
  | false =>
    have hwake : h.wake = h.proceed := if_neg (by simp [hr])
    have hwake' : h.asCycle.wake = h.asCycle.proceed := if_neg (by simp [hr])
    rw [hwake, hwake']
    by_cases hph : h.phase = .cosmeticDelay
    · exact .inr (asCycle_proceed_last hscript hr hph)
    · exact .inl (asCycle_proceed hscript hr hph)

theorem asCycle_afterAwait (hscript : h.script = none) (hr : h.retrying = false) (hph : h.phase = .transmit)
    (policy : FaultPolicy) (r : TxResult) : h.asCycle.afterAwait policy r = (h.afterAwait policy r).asCycle := by
  cases r with
  | ok => exact asCycle_proceed hscript hr (by simp [hph])
  | fault cause =>
    cases policy <;>
      simp [HostAgent.afterAwait, HostAgent.takeTransmissionFault, HostAgent.asCycle, HostAgent.cyclePos, hscript, hr, hph,
        Phase.cyclePos]

end

/-! #### The shared operations, under another host agent

None of them looks at the host but to move it, so a map of the host agent passes through. -/

section
variable {s t : State} {f : HostAgent → HostAgent}

theorem mapHost_mapHost (f g : HostAgent → HostAgent) (s : State) : (s.mapHost f).mapHost g = s.mapHost (g ∘ f) := rfl

theorem mapHost_congr {g : HostAgent → HostAgent} (h : f s.host = g s.host) : s.mapHost f = s.mapHost g := by
  simp only [State.mapHost, h]

/-- Driving does not look at the host. -/
theorem drive_mapHost {b : InBundle} (h : drive b s = .next t) (f : HostAgent → HostAgent) :
    drive b (s.mapHost f) = .next (t.mapHost f) := by
  rcases drive_next h with ⟨hb, rfl⟩ | ⟨hb, hidle, rfl⟩
  · simp [drive, hb]
  · simp only [drive, mapHost_block, mapHost_consumer, if_neg hb, hidle]
    rfl

theorem issue_mapHost {w : Cmd} (h : issue w s = .next t)
    (hf : (f s.host).afterIssue w = f (s.host.afterIssue w)) : issue w (s.mapHost f) = .next (t.mapHost f) := by
  obtain ⟨s1, h1, rfl⟩ := issue_next h
  obtain ⟨-, hh, -⟩ := drive_frame h1
  rw [issue, drive_mapHost h1 f, andThen, exec_decode, andThen]
  simp only [State.mapHost, State.answer, hh, hf]

/-- `transmit` does not look at the host. -/
theorem startTransmit_mapHost (h : startTransmit s = .next t) (f : HostAgent → HostAgent) :
    startTransmit (s.mapHost f) = .next (t.mapHost f) := by
  obtain ⟨hidle, rfl⟩ := startTransmit_next h
  simp only [startTransmit, mapHost_consumer, hidle]
  rfl

theorem startAwait_mapHost (h : startAwait s = .next t)
    (hf : ∀ plan, ({ f s.host with suspension := .awaiting plan } : HostAgent) =
      f { s.host with suspension := .awaiting plan }) :
    startAwait (s.mapHost f) = .next (t.mapHost f) := by
  obtain ⟨⟨x, hx⟩, rfl⟩ := startAwait_next h
  simp only [startAwait, mapHost_consumer, hx, State.suspendInAwait]
  cases s.consumer.awaitDraws with
  | nil => simp [State.mapHost, hf]
  | cons d ds => simp [State.mapHost, hf]

theorem sampleWord_mapHost (c : Bool) (k : Fin 25) (s : State) (f : HostAgent → HostAgent) :
    (s.mapHost f).sampleWord c k = ((s.sampleWord c k).1, (s.sampleWord c k).2.mapHost f) := by
  unfold State.sampleWord
  cases h : s.block.settled && c <;> simp [h, State.mapHost]

theorem endTransmission_mapHost {x : Transmission} {plan : AwaitDraw}
    (hf : (f s.host).afterAwait s.params.faultPolicy plan.result =
      f (s.host.afterAwait s.params.faultPolicy plan.result)) :
    (s.mapHost f).endTransmission x plan = (s.endTransmission x plan).mapHost f := by
  simp only [State.endTransmission, State.mapHost, hf]

/-- The consumer looks at the host only when it reports the result. -/
theorem awaitStep_mapHost {plan : AwaitDraw} (h : awaitStep plan s = .next t)
    (hf : (f s.host).afterAwait s.params.faultPolicy plan.result =
      f (s.host.afterAwait s.params.faultPolicy plan.result)) :
    awaitStep plan (s.mapHost f) = .next (t.mapHost f) := by
  unfold awaitStep at h ⊢
  simp only [mapHost_consumer, sampleWord_mapHost]
  split at h
  · cases h
  · split at h
    · cases h
      rw [if_pos ‹_›, endTransmission_mapHost hf]
    · rw [if_neg ‹_›]
      split at h
      · rw [dif_pos ‹_›]
        split at h
        · cases h
          rw [if_pos ‹_›, endTransmission_mapHost (by simpa using hf)]
        · cases h
          rw [if_neg ‹_›]
          rfl
      · cases h
        rw [dif_neg ‹_›, endTransmission_mapHost hf]

end

/-! #### The step -/

section
variable {s t : State}

/-- What the program does at the line of the loop's step. -/
theorem lineStep_asCycle {l : HostLine} (hscript : s.host.script = none) (hl : s.host.action = some l)
    (h : lineStep l s = .next t) : lineStep l (s.mapHost HostAgent.asCycle) = .next (t.mapHost HostAgent.asCycle) := by
  cases hr : s.host.retrying with
  | true =>
    obtain rfl : .sleepUs Config.resetDelayUs = l := by simpa [HostAgent.action, hr] using hl
    cases h
    rfl
  | false =>
    obtain rfl : s.host.phase.line = l := by simpa [HostAgent.action, hr, hscript] using hl
    revert h
    cases hph : s.host.phase with
    | compute => exact fun h => issue_mapHost h (asCycle_afterIssue hscript hr hph _)
    | transmit =>
      intro h
      obtain ⟨s1, h1, h2⟩ := andThen_next h
      rw [Phase.line, lineStep, startTransmit_mapHost h1, andThen]
      exact startAwait_mapHost h2 fun _ => rfl
    | resetDelay => rintro ⟨⟩; rfl
    | advance =>
      rintro ⟨⟩
      have hgo := asCycle_proceed (h := { s.host with hue := advanceHue s.host.hue }) hscript hr (by simp [hph])
      rw [Phase.line, lineStep, mapHost_mapHost, mapHost_mapHost]
      exact congrArg Host.Outcome.next (mapHost_congr hgo)
    | cosmeticDelay => rintro ⟨⟩; rfl

/-- Each step of the loop is a step of the repeated CYCLE, or that and its JMP. -/
theorem step_asCycle (hscript : s.host.script = none) (hawait : s.awaitsInTransmit) (h : step s = .next t) :
    ∃ u, step (s.mapHost HostAgent.asCycle) = .next u ∧
      (u = t.mapHost HostAgent.asCycle ∨ step u = .next (t.mapHost HostAgent.asCycle)) := by
  obtain ⟨hrun, ⟨plan, hplan, h1⟩ | ⟨d, hd, rfl⟩ | ⟨hsusp, l, hl, h1⟩⟩ := step_next h
  · obtain ⟨hr, hph⟩ := hawait plan hplan
    refine ⟨_, ?_, .inl rfl⟩
    rw [step_awaiting (s := s.mapHost HostAgent.asCycle) hrun hplan]
    exact awaitStep_mapHost h1 (asCycle_afterAwait hscript hr (hph hscript) _ _)
  · refine ⟨_, step_sleeping (s := s.mapHost HostAgent.asCycle) hrun hd, ?_⟩
    obtain hwake | ⟨haction, hjump⟩ := asCycle_wake hscript
    · rw [mapHost_mapHost, mapHost_mapHost]
      exact .inl (mapHost_congr hwake)
    · rw [step_running (by simpa using hrun) (by simp) haction, lineStep]
      simp only [mapHost_mapHost]
      exact .inr (congrArg Host.Outcome.next (mapHost_congr hjump))
  · refine ⟨_, ?_, .inl rfl⟩
    rw [step_running (s := s.mapHost HostAgent.asCycle) hrun hsusp ((asCycle_action hscript).trans hl)]
    exact lineStep_asCycle hscript hl h1

end

/-- Settles O45: the program at the line of the loop's step simulates the loop. -/
theorem cycleProgramSimulatesTheLoop : Obligations.CycleProgramSimulatesTheLoop :=
  ⟨fun _ => rfl, cycleLines, assemble_cycle, rfl, fun _ _ => step_asCycle⟩

end Sys2Proof.Machine

/-! ### The color converter

From the hue to its region and remainder, from these to the levels, and from the levels to the channels. -/

namespace Sys2Proof.Machine

/-! #### The hue -/

theorem hueNorm_of_lt {h : Nat} (hh : h < 360) : hueNorm h = h := Nat.mod_eq_of_lt hh

/-- The region and the offset in it are the quotient and the remainder by 60 (R60, R61). -/
theorem hueRegion_add_offset (h : Nat) : h = hueRegion h * 60 + h % 60 := (Nat.div_add_mod' h 60).symm

theorem hueRem_eq_offset (h : Nat) : hueRem h = h % 60 * 6 := by
  have hoffset : h - hueRegion h * 60 = h % 60 := Nat.sub_eq_of_eq_add' (hueRegion_add_offset h)
  rw [hueRem, Config.regionSpan, hoffset]

/-- The converter sees the hue modulo 360 only (R59). -/
theorem hsvToRgb_congr {hue hue' : Hue} (hmod : hue.toNat % 360 = hue'.toNat % 360) (s v : Chan) :
    hsvToRgb hue s v = hsvToRgb hue' s v := by
  have hnorm : hueNorm hue.toNat = hueNorm hue'.toNat := hmod
  rw [hsvToRgb, hsvToRgb, hnorm]

/-! #### The levels -/

section
variable (s v rem : Nat)

/-- A level scaled from full value is its factor. -/
theorem full_scaled (f : Nat) : 255 * f / 255 = f := Nat.mul_div_cancel_left f (by decide)

theorem levelQ_full : levelQ 255 255 rem = 255 - 255 * rem / 360 := full_scaled _

theorem levelT_full : levelT 255 255 rem = 255 - 255 * (360 - rem) / 360 := full_scaled _

/-- At the start of a region the ascending level is the minimum level (R64). -/
theorem levelT_zero_rem : levelT s v 0 = levelP s v := by
  have hfactor : s * (360 - 0) / 360 = s := Nat.mul_div_cancel s (by decide)
  rw [levelT, levelP, hfactor]

/-- What R63 subtracts: the largest remainder takes at most 250 of 255. -/
theorem descending_factor_le {s rem : Nat} (hs : s ≤ 255) (hrem : rem ≤ 354) : s * rem / 360 ≤ 250 :=
  Nat.div_le_div_right (Nat.mul_le_mul hs hrem)

/-- What R64 subtracts. -/
theorem ascending_factor_le {s : Nat} (hs : s ≤ 255) (rem : Nat) : s * (360 - rem) / 360 ≤ 255 :=
  Nat.div_le_div_right (Nat.mul_le_mul hs (Nat.sub_le 360 rem))

/-- Without saturation every level is the value. -/
@[simp] theorem levelP_zero_sat : levelP 0 v = v := by simp [levelP]
@[simp] theorem levelQ_zero_sat : levelQ 0 v rem = v := by simp [levelQ]
@[simp] theorem levelT_zero_sat : levelT 0 v rem = v := by simp [levelT]

/-- At value 0 every level is 0. -/
@[simp] theorem levelP_zero_val : levelP s 0 = 0 := Nat.le_zero.1 (levelP_le s 0)
@[simp] theorem levelQ_zero_val : levelQ s 0 rem = 0 := Nat.le_zero.1 (levelQ_le s 0 rem)
@[simp] theorem levelT_zero_val : levelT s 0 rem = 0 := Nat.le_zero.1 (levelT_le s 0 rem)

end

/-! #### The selection -/

section
variable {region v p q t : Nat}

/-- Where the levels are all the value, the color is gray in every region. -/
theorem selectRgb_gray (region v : Nat) : selectRgb region v v v v = Rgb.ofNats v v v := by
  unfold selectRgb
  split <;> rfl

/-- Each selected triple is the value in one place and two of the levels (R65). -/
theorem selectRgb_has_value (hp : p ≤ v) (hq : q ≤ v) (ht : t ≤ v) :
    ∃ x y, x ≤ v ∧ y ≤ v ∧ (selectRgb region v p q t = Rgb.ofNats v x y ∨
      selectRgb region v p q t = Rgb.ofNats x v y ∨ selectRgb region v p q t = Rgb.ofNats x y v) := by
  unfold selectRgb
  split
  · exact ⟨t, p, ht, hp, .inl rfl⟩
  · exact ⟨q, p, hq, hp, .inr (.inl rfl)⟩
  · exact ⟨p, t, hp, ht, .inr (.inl rfl)⟩
  · exact ⟨p, q, hp, hq, .inr (.inr rfl)⟩
  · exact ⟨t, p, ht, hp, .inr (.inr rfl)⟩
  · exact ⟨p, q, hp, hq, .inl rfl⟩

end

/-! #### The color -/

section
variable {hue : Hue} {s v : Chan}

/-- The channels as numbers, from the row of the region: none exceeds the value, so narrowing to 8 bits keeps them. -/
theorem hsvToRgb_toNat_of_row {r g b : Nat} (hrow : hsvToRgb hue s v = Rgb.ofNats r g b)
    (hr : r ≤ v.toNat) (hg : g ≤ v.toNat) (hb : b ≤ v.toNat) :
    (hsvToRgb hue s v).r.toNat = r ∧ (hsvToRgb hue s v).g.toNat = g ∧ (hsvToRgb hue s v).b.toNat = b := by
  rw [hrow]
  exact ofNats_toNat r g b (hr.trans_lt v.isLt) (hg.trans_lt v.isLt) (hb.trans_lt v.isLt)

/-- The row of a region (R58, R65). -/
theorem hsvToRgb_of_region {k : Nat} (hk : hueRegion (hueNorm hue.toNat) = k) :
    hsvToRgb hue s v = selectRgb k v.toNat (levelP s.toNat v.toNat)
      (levelQ s.toNat v.toNat (hueRem (hueNorm hue.toNat))) (levelT s.toNat v.toNat (hueRem (hueNorm hue.toNat))) := by
  rw [hsvToRgb, hk]

end

section
variable (hue : Hue) (s v : Chan)

/-- One channel is the value and the others are at most that (R69). -/
theorem hsvToRgb_has_value : ∃ x y, x ≤ v.toNat ∧ y ≤ v.toNat ∧ (hsvToRgb hue s v = Rgb.ofNats v.toNat x y ∨
    hsvToRgb hue s v = Rgb.ofNats x v.toNat y ∨ hsvToRgb hue s v = Rgb.ofNats x y v.toNat) :=
  selectRgb_has_value (levelP_le _ _) (levelQ_le _ _ _) (levelT_le _ _ _)

theorem hsvToRgb_max :
    max (hsvToRgb hue s v).r.toNat (max (hsvToRgb hue s v).g.toNat (hsvToRgb hue s v).b.toNat) = v.toNat := by
  obtain ⟨x, y, hx, hy, hrow | hrow | hrow⟩ := hsvToRgb_has_value hue s v
  · obtain ⟨hr, hg, hb⟩ := hsvToRgb_toNat_of_row hrow le_rfl hx hy
    omega
  · obtain ⟨hr, hg, hb⟩ := hsvToRgb_toNat_of_row hrow hx le_rfl hy
    omega
  · obtain ⟨hr, hg, hb⟩ := hsvToRgb_toNat_of_row hrow hx hy le_rfl
    omega

theorem hsvToRgb_some_channel_eq :
    (hsvToRgb hue s v).r = v ∨ (hsvToRgb hue s v).g = v ∨ (hsvToRgb hue s v).b = v := by
  obtain ⟨x, y, -, -, hrow | hrow | hrow⟩ := hsvToRgb_has_value hue s v
  · exact .inl (by simp [hrow, Rgb.ofNats])
  · exact .inr (.inl (by simp [hrow, Rgb.ofNats]))
  · exact .inr (.inr (by simp [hrow, Rgb.ofNats]))

/-- Without saturation the color is gray (R57). -/
theorem hsvToRgb_zero_sat : hsvToRgb hue 0 v = ⟨v, v, v⟩ := by
  simp [hsvToRgb, selectRgb_gray, Rgb.ofNats]

/-- At value 0 the color is black (R57). -/
theorem hsvToRgb_zero_val : hsvToRgb hue s 0 = ⟨0, 0, 0⟩ := by
  simp [hsvToRgb, selectRgb_gray, Rgb.ofNats]

end

/-- Settles O6: the region picks the row, and no entry of it exceeds the value, so its numbers are the channels. -/
theorem hsvToRgbIsTheStatedFunction : Obligations.HsvToRgbIsTheStatedFunction := by
  intro hue sat val s v h region rem p q t c
  have hregion : region < 6 := hueRegion_lt hue.toNat
  have hp : p ≤ v := levelP_le s v
  have hq : q ≤ v := levelQ_le s v rem
  have ht : t ≤ v := levelT_le s v rem
  have hrow {k : Nat} (hk : region = k) : c = selectRgb k v p q t := hsvToRgb_of_region hk
  refine ⟨Nat.le_of_lt_succ hregion, ?_, ?_, ?_, ?_, ?_, ?_⟩
  · exact fun hk => hsvToRgb_toNat_of_row (hrow hk) le_rfl ht hp
  · exact fun hk => hsvToRgb_toNat_of_row (hrow hk) hq le_rfl hp
  · exact fun hk => hsvToRgb_toNat_of_row (hrow hk) hp le_rfl ht
  · exact fun hk => hsvToRgb_toNat_of_row (hrow hk) hp hq le_rfl
  · exact fun hk => hsvToRgb_toNat_of_row (hrow hk) ht hp le_rfl
  · exact fun hk => hsvToRgb_toNat_of_row (hrow hk) le_rfl hp hq

/-- Settles O9: the remainder of a reduced hue is at most 354 and the saturation at most 255, which bounds the factors. -/
theorem levelsAndTheirFactors : Obligations.LevelsAndTheirFactors := by
  intro s v hue hs _ hhue
  have hrem : hueRem hue ≤ 354 := hueNorm_of_lt hhue ▸ hueRem_le hue
  have hdesc := descending_factor_le hs hrem
  exact ⟨rfl, rfl, rfl, hdesc, by omega, by omega, ascending_factor_le hs _, fun h0 => h0 ▸ levelT_zero_rem s v⟩

/-- Settles O10: the triple holds the value once, and levels beside it. -/
theorem channelsNeverExceedValue : Obligations.ChannelsNeverExceedValue := fun hue s v =>
  ⟨levelP_le _ _, levelQ_le _ _ _, levelT_le _ _ _, hsvToRgb_max hue s v, hsvToRgb_some_channel_eq hue s v⟩

/-- Settles O11: some channel is the value, and at full value a level is its factor; the six colors are computed. -/
theorem fullSaturationAndValueProperties : Obligations.FullSaturationAndValueProperties :=
  ⟨fun hue => ⟨hsvToRgb_some_channel_eq hue 255 255, full_scaled 0, levelT_full _, levelQ_full _⟩,
    by decide, by decide, by decide, by decide, by decide, by decide⟩

/-- Settles O7: the remainder modulo 360 is below 360 and its own remainder, and 360 leaves none. -/
theorem hueIsTakenModulo360 : Obligations.HueIsTakenModulo360 := by
  refine ⟨fun hue => ⟨rfl, Nat.le_of_lt_succ (hueNorm_lt _)⟩, fun hue s v => hsvToRgb_congr ?_ s v,
    hsvToRgb_congr (by decide)⟩
  rw [BitVec.toNat_ofNat]
  omega

/-- Settles O8: the region is the quotient by 60, the remainder six times the offset in the region. -/
theorem regionAndRemainderOfHue : Obligations.RegionAndRemainderOfHue := by
  intro h hh
  have hregion : hueRegion h < 6 := hueNorm_of_lt hh ▸ hueRegion_lt h
  have hsplit := hueRegion_add_offset h
  have hrem := hueRem_eq_offset h
  have hoffset : h % 60 < 60 := Nat.mod_lt h (by decide)
  exact ⟨rfl, by omega, by omega, by omega, rfl, by omega, by omega, by omega⟩

/-- Settles O5: the `op` of each word selects the operation, and its fields are computed. -/
theorem exampleWordsDecode : Obligations.ExampleWordsDecode :=
  ⟨decode_of_op_zero (by decide), decode_of_op_one (by decide), decode_of_op_two (by decide),
    decode_of_op_three (by decide)⟩

/-- Settles O19: CONV drives its output bundle alone, and the converter gives the corner cases. -/
theorem convRunsAndAnswers : Obligations.ConvRunsAndAnswers :=
  ⟨fun _ => decode_of_op_zero, fun _ _ _ _ => rfl, hsvToRgb_zero_sat, hsvToRgb_zero_val,
    fun s v => ⟨hsvToRgb_congr (by decide) s v, hsvToRgb_congr (by decide) s v⟩, by decide, by decide⟩

end Sys2Proof.Machine

/-! ### The encoder and the line

What an encoded color holds word by word, what it reads back as, and what it puts on the line. -/

namespace Sys2Proof.Machine

/-! #### The words of a color -/

section
variable (p : Params) (c : Rgb)

/-- A data word carries its bit of the GRB word (R74). -/
theorem encodeRgb_data {k : Nat} (hk : k < 24) : (encodeRgb p c)[k] = bitWord p ((grbWord c).getLsbD (23 - k)) := by
  rw [encodeRgb_get, if_pos hk]

/-- Word 24 is the terminator (R76). -/
theorem encodeRgb_terminator : (encodeRgb p c)[24] = 0 := encodeRgb_get p c 24 (by decide)

/-- Every data word is the word of some bit (R74). -/
theorem bitWord_of_mem_dataWords {w : PulseWord} (hw : w ∈ (encodeRgb p c).toList.take 24) :
    ∃ bit, w = bitWord p bit := by
  obtain ⟨k, hk, rfl⟩ := List.getElem_of_mem hw
  have hdata : k < 24 := hk.trans_le (List.length_take_le 24 _)
  rw [List.getElem_take, Vector.getElem_toList, encodeRgb_data p c hdata]
  exact ⟨_, rfl⟩

end

/-- A bit of the GRB word is a binary digit of the packed color (R50). -/
theorem grbWord_getLsbD_eq_digit (c : Rgb) (i : Nat) :
    (grbWord c).getLsbD i = decide ((c.g.toNat * 65536 + c.r.toNat * 256 + c.b.toNat) / 2 ^ i % 2 = 1) := by
  rw [← grbWord_toNat, ← Nat.testBit_eq_decide_div_mod_eq, BitVec.testBit_toNat]

/-! #### Reading the words back -/

/-- One more word shifts the bits read so far and adds its own (R81). -/
theorem decodeWords_concat (p : Params) (ws : List PulseWord) (w : PulseWord) :
    decodeWords p (ws ++ [w]) = 2 * decodeWords p ws + if pwDur0 w = p.t1h then 1 else 0 :=
  List.foldl_append

/-- Two high durations that differ tell the two data words apart (R81). -/
theorem pwDur0_bitWord_eq_t1h_iff {p : Params} (hp : p.t1h ≠ p.t0h) (bit : Bool) :
    pwDur0 (bitWord p bit) = p.t1h ↔ bit = true := by
  cases bit <;> simp [hp.symm]

/-- Where the two high durations differ, the first `n` data words read back as the top `n` bits of the packed color. -/
theorem decodeWords_take {p : Params} (hp : p.t1h ≠ p.t0h) (c : Rgb) {n : Nat} (hn : n ≤ 24) :
    decodeWords p ((encodeRgb p c).toList.take n) = (grbWord c).toNat / 2 ^ (24 - n) := by
  induction n with
  | zero => exact (Nat.div_eq_of_lt (grbWord c).isLt).symm
  | succ n ih =>
    have hlt : n < (encodeRgb p c).toList.length := by
      rw [Vector.length_toList]
      omega
    have hdigit : (pwDur0 (encodeRgb p c).toList[n] = p.t1h) ↔ (grbWord c).toNat / 2 ^ (23 - n) % 2 = 1 := by
      rw [Vector.getElem_toList, encodeRgb_data p c (by omega), pwDur0_bitWord_eq_t1h_iff hp, grbWord_getLsbD_eq_digit,
        decide_eq_true_iff, grbWord_toNat]
    have hshift : 2 ^ (24 - n) = 2 ^ (23 - n) * 2 := by
      rw [← Nat.pow_succ]
      congr 1
      omega
    rw [← List.take_concat_get' _ _ hlt, decodeWords_concat, ih (by omega), hshift, ← Nat.div_div_eq_div_mul,
      Nat.add_sub_add_right 23 1 n]
    simp only [hdigit]
    split <;> omega

/-- Settles O17: all 24 words read back as all 24 bits of the packed color. -/
theorem sequenceRoundTrip : Obligations.SequenceRoundTrip := by
  refine ⟨rfl, by decide, fun p c hp => ?_⟩
  rw [← grbWord_toNat, ← Nat.div_one (grbWord c).toNat]
  exact decodeWords_take hp c le_rfl

/-- Settles O14: the bit that a data word carries is a digit of the packed color. -/
theorem encodedSequenceWordByWord : Obligations.EncodedSequenceWordByWord := by
  refine fun p c => ⟨fun k hk => ?_, encodeRgb_terminator p c, by decide, by decide⟩
  rw [encodeRgb_data p c hk, grbWord_getLsbD_eq_digit]
  simp only [bitWord, decide_eq_true_eq]

/-- The duration fields of a pulse word as numbers, and its least value (R47, R83). -/
theorem pword_fields_toNat (dh dl : Ticks) : (pword dh dl).toNat % 2 ^ 15 = dh.toNat ∧
    (pword dh dl).toNat / 2 ^ 16 % 2 ^ 15 = dl.toNat ∧ 32768 ≤ (pword dh dl).toNat := by
  have hh := dh.isLt
  have hl := dl.isLt
  rw [pword_toNat]
  omega

/-- Settles O16: a data word is the word of a 1 or of a 0 at the documented durations. -/
theorem encodedSequenceShape : Obligations.EncodedSequenceShape := by
  refine fun c => ⟨encodeRgb_terminator _ c, fun k hk => ?_⟩
  rw [encodeRgb_data _ c hk]
  cases (grbWord c).getLsbD (23 - k) with
  | false =>
    obtain ⟨hhigh, hlow, hleast⟩ := pword_fields_toNat 32 68
    exact ⟨.inr hhigh, pwLvl0_pword 32 68, .inr hlow, pwLvl1_pword 32 68, hleast, bitWord_ne_zero _ _⟩
  | true =>
    obtain ⟨hhigh, hlow, hleast⟩ := pword_fields_toNat 64 36
    exact ⟨.inl hhigh, pwLvl0_pword 64 36, .inl hlow, pwLvl1_pword 64 36, hleast, bitWord_ne_zero _ _⟩

/-! #### The line -/

/-- A pulse word is high for its first duration, then low for its second (R79). -/
theorem wordPulses_pword (dh dl : Ticks) : wordPulses (pword dh dl) = [⟨true, dh.toNat⟩, ⟨false, dl.toNat⟩] := by
  simp [wordPulses]

/-- A frame whose words all last the same lasts that long for each of them (R80). -/
theorem frame_ticks {n : Nat} {ws : List PulseWord} (h : ∀ w ∈ ws, ((wordPulses w).map Pulse.ticks).sum = n)
    (r : TxResult) : ((⟨ws, r⟩ : Frame).pulses.map Pulse.ticks).sum = ws.length * n := by
  unfold Frame.pulses
  induction ws with
  | nil => simp
  | cons w ws ih =>
    obtain ⟨hw, hws⟩ := List.forall_mem_cons.1 h
    rw [List.flatMap_cons, List.map_append, List.sum_append, hw, ih hws, List.length_cons, Nat.succ_mul, Nat.add_comm]

/-- Settles O18: the phases of a data word are its two durations, which make 100 ticks at the documented clock. -/
theorem dataWordsOnTheLine : Obligations.DataWordsOnTheLine := by
  have hword (bit : Bool) : ((wordPulses (bitWord Params.nominal bit)).map Pulse.ticks).sum = 100 := by
    cases bit <;> decide
  refine ⟨fun p bit => ?_, hword, fun c r => ?_, fun s hidle => ?_⟩
  · cases bit with
    | false => exact wordPulses_pword p.t0h p.t0l
    | true => exact wordPulses_pword p.t1h p.t1l
  · have hdata : ∀ w ∈ (encodeRgb Params.nominal c).toList.take 24, ((wordPulses w).map Pulse.ticks).sum = 100 := by
      intro w hw
      obtain ⟨bit, rfl⟩ := bitWord_of_mem_dataWords _ c hw
      exact hword bit
    rw [frame_ticks hdata r, List.length_take, Vector.length_toList]
    rfl
  · simp [State.lineLevel, hidle]

/-! #### ENC and CONVENC -/

/-- Settles O20: ENC drives its output bundle alone, and the bits of black, white and pure red are computed. -/
theorem encRunsAndAnswers : Obligations.EncRunsAndAnswers := by
  have hred : ∀ k < 24, (grbWord ⟨255, 0, 0⟩).getLsbD (23 - k) = decide (8 ≤ k ∧ k < 16) := by decide
  have hblack : ∀ k < 24, (grbWord ⟨0, 0, 0⟩).getLsbD (23 - k) = false := by decide
  have hwhite : ∀ k < 24, (grbWord ⟨255, 255, 255⟩).getLsbD (23 - k) = true := by decide
  refine ⟨fun _ => decode_of_op_one, fun _ _ _ _ => rfl, fun p k hk => ?_, fun p => ?_⟩
  · rw [encodeRgb_data _ _ hk, encodeRgb_data _ _ hk, encodeRgb_data _ _ hk, hblack k hk, hwhite k hk, hred k hk]
    exact ⟨rfl, rfl, rfl⟩
  · exact ⟨encodeRgb_terminator p _, encodeRgb_terminator p _, encodeRgb_terminator p _⟩

/-- CONVENC answers as ENC does for the converter's color (R73). -/
theorem convencOut_eq_encOut (p : Params) (hue : Hue) (sat val : Chan) : convencOut p hue sat val =
    encOut p (hsvToRgb hue sat val).r (hsvToRgb hue sat val).g (hsvToRgb hue sat val).b := rfl

/-- Settles O21: CONVENC drives its output bundle alone, with ENC's answer for CONV's color; hue 0 is pure red. -/
theorem convencRunsAndAnswers : Obligations.ConvencRunsAndAnswers := by
  refine ⟨fun _ => decode_of_op_two, fun _ _ _ _ => rfl, fun hue sat val s => ?_, fun p => ?_⟩
  · exact ⟨_, _, _, rfl, rfl, rfl, (convencOut_eq_encOut s.params hue sat val).symm⟩
  · have hred : hsvToRgb 0 255 255 = ⟨255, 0, 0⟩ := by decide
    rw [blockF_of_op_two (by decide), blockF_of_op_one (by decide), convencOut_eq_encOut]
    exact congrArg (fun c : Rgb => encOut p c.r c.g c.b) hred

end Sys2Proof.Machine

/-! ### What a step does to the host

One lemma for the consumer's step, one for a line of the running host: which of the host's moves it makes. -/

namespace Sys2Proof.Machine

section
variable {s s' : State}

/-- A step of the consumer leaves the host alone, or ends the transmission and has the host observe its result (R99). -/
theorem awaitStep_host {plan : AwaitDraw} (h : awaitStep plan s = .next s') :
    s'.host = s.host ∨
      (s'.host = s.host.afterAwait s.params.faultPolicy plan.result ∧ s'.consumer.channel = .idle) := by
  obtain ⟨x, -, rfl | ⟨hk, ⟨-, rfl⟩ | ⟨-, rfl⟩⟩⟩ := awaitStep_next h
  · exact .inr ⟨rfl, rfl⟩
  · exact .inr (by simp)
  · exact .inl (by simp)

theorem issue_host {w : Cmd} (h : issue w s = .next s') : s'.host = s.host.afterIssue w := by
  obtain ⟨s1, h1, rfl⟩ := issue_next h
  obtain ⟨-, hh, -⟩ := drive_frame h1
  rw [mapHost_host, answer_host, hh]

theorem startTransmit_host (h : startTransmit s = .next s') : s'.host = s.host := by
  obtain ⟨-, rfl⟩ := startTransmit_next h
  rfl

theorem suspendInAwait_host (s : State) :
    ∃ plan, s.suspendInAwait.host = { s.host with suspension := .awaiting plan } := by
  unfold State.suspendInAwait
  split
  · exact ⟨_, rfl⟩
  · exact ⟨_, rfl⟩

theorem startAwait_host (h : startAwait s = .next s') :
    ∃ plan, s'.host = { s.host with suspension := .awaiting plan } := by
  obtain ⟨-, rfl⟩ := startAwait_next h
  exact suspendInAwait_host s

/-- A line of the running host makes one move of the host. -/
theorem lineStep_host {l : HostLine} (h : lineStep l s = .next s') :
    (∃ w, s.host.lineCmd l = some w ∧ s'.host = s.host.afterIssue w) ∨
    s'.host = s.host.proceed ∨
    (∃ plan, s'.host = { s.host with suspension := .awaiting plan }) ∨
    (∃ d, s'.host = s.host.sleep d) ∨
    (l = .hadv ∧ s'.host = ({ s.host with hue := advanceHue s.host.hue } : HostAgent).proceed) ∨
    ∃ n, s'.host = s.host.jump n := by
  rcases lineStep_next h with ⟨w, hw, h1⟩ | ⟨w, s1, -, h1, rfl⟩ | ⟨-, rfl⟩ | ⟨s1, -, h1, h2⟩ |
    ⟨s1, -, h1, rfl⟩ | ⟨-, h1⟩ | ⟨n, -, rfl⟩ | ⟨n, -, rfl⟩ | ⟨hl, rfl⟩ | ⟨n, -, rfl⟩ |
    ⟨k, s1, -, h1, rfl⟩ | ⟨b, -, rfl⟩
  · exact .inl ⟨w, hw, issue_host h1⟩
  · obtain ⟨-, hh, -⟩ := drive_frame h1
    exact .inr (.inl (congrArg HostAgent.proceed hh))
  · exact .inr (.inl rfl)
  · have hawait := startAwait_host h2
    rw [startTransmit_host h1] at hawait
    exact .inr (.inr (.inl hawait))
  · exact .inr (.inl (congrArg HostAgent.proceed (startTransmit_host h1)))
  · exact .inr (.inr (.inl (startAwait_host h1)))
  · exact .inr (.inr (.inr (.inl ⟨_, rfl⟩)))
  · exact .inr (.inr (.inr (.inl ⟨_, rfl⟩)))
  · exact .inr (.inr (.inr (.inr (.inl ⟨hl, rfl⟩))))
  · exact .inr (.inr (.inr (.inr (.inr ⟨n, rfl⟩))))
  · obtain ⟨-, -, hh, -⟩ := readPulseWord_frame h1
    exact .inr (.inl (congrArg HostAgent.proceed hh))
  · exact .inr (.inl (congrArg HostAgent.proceed (layOut_host b s)))

/-- No line of the running host halts it (R100). -/
theorem lineStep_halted {l : HostLine} (h : lineStep l s = .next s') : s'.host.halted = s.host.halted := by
  rcases lineStep_host h with ⟨w, -, hh⟩ | hh | ⟨plan, hh⟩ | ⟨d, hh⟩ | ⟨-, hh⟩ | ⟨n, hh⟩ <;> simp [hh]

/-- No line of the running host but `hadv` changes `H` (R97). -/
theorem lineStep_hue {l : HostLine} (h : lineStep l s = .next s') :
    s'.host.hue = s.host.hue ∨ (l = .hadv ∧ s'.host.hue = advanceHue s.host.hue) := by
  rcases lineStep_host h with ⟨w, -, hh⟩ | hh | ⟨plan, hh⟩ | ⟨d, hh⟩ | ⟨hl, hh⟩ | ⟨n, hh⟩
  · exact .inl (by simp [hh])
  · exact .inl (by simp [hh])
  · exact .inl (by simp [hh])
  · exact .inl (by simp [hh])
  · exact .inr ⟨hl, by simp [hh]⟩
  · exact .inl (by simp [hh])

end

/-- Settles O48: the result of an await, waking and every line but `hadv` keep `H`. -/
theorem onlyTheAdvanceChangesHue : Obligations.OnlyTheAdvanceChangesHue := by
  intro s t h
  obtain ⟨-, ⟨plan, -, h1⟩ | ⟨d, -, rfl⟩ | ⟨hsusp, l, hl, h1⟩⟩ := step_next h
  · obtain hh | ⟨hh, -⟩ := awaitStep_host h1
    · exact .inl (congrArg HostAgent.hue hh)
    · exact .inl (by rw [hh, afterAwait_hue])
  · exact .inl (wake_hue s.host)
  · obtain hhue | ⟨rfl, hhue⟩ := lineStep_hue h1
    · exact .inl hhue
    · exact .inr ⟨hsusp, hl, hhue⟩

/-- An await halts the host only by a TransmissionFault under `halt` (R100). -/
theorem afterAwait_halts {p : FaultPolicy} {r : TxResult} {h : HostAgent} (hrun : h.halted = false)
    (hhalt : (h.afterAwait p r).halted = true) : p = .halt ∧ ∃ cause, r = .fault cause := by
  cases r with
  | ok => simp [HostAgent.afterAwait, hrun] at hhalt
  | fault cause => exact ⟨by simpa [HostAgent.afterAwait, hrun] using hhalt, cause, rfl⟩

theorem AwaitDraw.result_eq_fault {plan : AwaitDraw} {cause : Nat} (h : plan.result = .fault cause) :
    ∃ cut, plan = .fault cause cut := by
  cases plan with
  | ok => cases h
  | fault c cut =>
    cases h
    exact ⟨cut, rfl⟩

/-- Settles O53: of a host that is not halted only the result of an await makes a halted one. -/
theorem onlyATransmissionFaultHalts : Obligations.OnlyATransmissionFaultHalts := by
  intro s t h hhalt
  obtain ⟨hrun, ⟨plan, hplan, h1⟩ | ⟨d, -, rfl⟩ | ⟨-, l, -, h1⟩⟩ := step_next h
  · obtain hh | ⟨hh, hidle⟩ := awaitStep_host h1
    · simp [hh, hrun] at hhalt
    · obtain ⟨hpolicy, cause, hresult⟩ := afterAwait_halts hrun (hh ▸ hhalt)
      obtain ⟨cut, rfl⟩ := AwaitDraw.result_eq_fault hresult
      exact ⟨hpolicy, cause, cut, hplan, hidle, by rw [hh, afterAwait_hue]⟩
  · simp [hrun] at hhalt
  · simp [lineStep_halted h1, hrun] at hhalt

/-! #### Where the frame of a program starts -/

/-- The lines of the program and the line where its frame starts, which `retry` goes back to (assumption 10). -/
def HostAgent.repeatPoint (h : HostAgent) : Option (List HostLine × Nat) :=
  h.script.map fun p => (p.lines, p.frameStart)

section
variable (h : HostAgent)

@[simp] theorem proceed_repeatPoint : h.proceed.repeatPoint = h.repeatPoint := by
  cases hp : h.script <;> simp [HostAgent.repeatPoint, HostAgent.proceed, hp]

@[simp] theorem jump_repeatPoint (n : Nat) : (h.jump n).repeatPoint = h.repeatPoint := by
  cases hp : h.script <;> simp [HostAgent.repeatPoint, HostAgent.jump, hp]

@[simp] theorem restartFrame_repeatPoint : h.restartFrame.repeatPoint = h.repeatPoint := by
  cases hp : h.script <;> simp [HostAgent.repeatPoint, HostAgent.restartFrame, hp]

@[simp] theorem wake_repeatPoint : h.wake.repeatPoint = h.repeatPoint := by
  unfold HostAgent.wake
  split <;> simp

@[simp] theorem afterAwait_repeatPoint (p : FaultPolicy) (r : TxResult) :
    (h.afterAwait p r).repeatPoint = h.repeatPoint := by
  cases r with
  | ok => exact proceed_repeatPoint h
  | fault cause => simp [HostAgent.repeatPoint, HostAgent.afterAwait]

end

/-- A program after an issue: at the next line, its frame starting at the line of the issue (assumption 10). -/
theorem afterIssue_script {h : HostAgent} {p : Script} (hp : h.script = some p) (w : Cmd) :
    (h.afterIssue w).script = some { p with pos := p.pos + 1, frameStart := p.pos } := by
  simp [HostAgent.afterIssue, HostAgent.proceedFromIssue, hp]

/-- A step that issues nothing keeps the program and the start of its frame. -/
theorem step_repeatPoint {s t : State} (hnext : s.nextCmd = none) (h : step s = .next t) :
    t.host.repeatPoint = s.host.repeatPoint := by
  obtain ⟨hrun, ⟨plan, -, h1⟩ | ⟨d, -, rfl⟩ | ⟨hsusp, l, hl, h1⟩⟩ := step_next h
  · obtain hh | ⟨hh, -⟩ := awaitStep_host h1 <;> simp [hh]
  · exact wake_repeatPoint s.host
  · rcases lineStep_host h1 with ⟨w, hw, -⟩ | hh | ⟨plan, hh⟩ | ⟨d, hh⟩ | ⟨-, hh⟩ | ⟨n, hh⟩
    · exact nomatch hnext.symm.trans (nextCmd_of_lineCmd hrun hsusp hl hw)
    · rw [hh, proceed_repeatPoint]
    · rw [hh]
      rfl
    · rw [hh]
      rfl
    · rw [hh, proceed_repeatPoint]
      rfl
    · rw [hh, jump_repeatPoint]

/-- Settles O58: an issue makes its line the start of the frame, any other step keeps it. -/
theorem repeatedFrameStartsAtTheLastIssue : Obligations.RepeatedFrameStartsAtTheLastIssue := by
  intro s t p hp h
  cases hnext : s.nextCmd with
  | some w =>
    rw [step_issue hnext] at h
    exact ⟨_, (congrArg HostAgent.script (issue_host h)).trans (afterIssue_script hp w), rfl, fun _ _ => ⟨rfl, rfl⟩,
      fun hnone => nomatch hnone⟩
  | none =>
    have hkeep := step_repeatPoint hnext h
    simp only [HostAgent.repeatPoint, hp, Option.map_some, Option.map_eq_some_iff, Prod.mk.injEq] at hkeep
    obtain ⟨q, hq, hlines, hstart⟩ := hkeep
    exact ⟨q, hq, hlines, fun _ hsome => (nomatch hsome), fun _ => hstart⟩

end Sys2Proof.Machine

/-! ### Steps that the state determines

What a step of a host answers when its action can be performed. -/

namespace Sys2Proof.Machine

/-- Settles O23: an operation drives the output bundle alone. -/
theorem operationsDriveOnlyTheOutputs : Obligations.OperationsDriveOnlyTheOutputs := by
  intro i s
  obtain ⟨o, ho⟩ := exec_next i s
  exact ⟨s.answer o, ho, rfl, rfl, rfl, rfl, rfl, rfl, fun _ => rfl⟩

/-- Settles O41: the step looks at `halted` first. -/
theorem haltedHostHasNoStep : Obligations.HaltedHostHasNoStep := fun _ h => if_pos h

section
variable {s : State}

/-! #### Issues -/

/-- The inputs may be driven where that changes nothing, and on an `idle` channel (R110). -/
theorem drive_of_allowed {b : InBundle} (h : b = s.block.inp ∨ s.consumer.channel = .idle) :
    drive b s = .next (if b = s.block.inp then s else s.changeInputs b) := by
  unfold drive
  split
  · rfl
  · rename_i hb
    simp [h.resolve_left hb]

theorem nextCmd_placeCmd (w : Cmd) (s : State) : (s.placeCmd w).nextCmd = some w := rfl

theorem withFetchWord_toNat (w : Cmd) (s : State) : s.withFetchWord 64 w.toNat = s.placeCmd w := by
  rw [State.withFetchWord, Nat.mod_eq_of_lt w.isLt, BitVec.ofNat_toNat, BitVec.setWidth_eq]

end

/-- Settles O26: an issue is driving, `exec` of the decoded operation, and the host going on. -/
theorem stepRunsDecodedOperation : Obligations.StepRunsDecodedOperation := by
  refine ⟨fun s w hnext hallowed => ⟨_, exec_decode w _, ?_⟩, fun s w => ?_⟩
  · rw [step_issue hnext, issue_of_drive (drive_of_allowed hallowed)]
  · rw [withFetchWord_toNat]
    exact ⟨nextCmd_placeCmd w s, rfl⟩

section
variable {s : State}

/-! #### Awaits -/

/-- `s` with a transmission begun (R99). -/
def State.withTransmission (s : State) : State :=
  { s with consumer := { s.consumer with channel := .busy ⟨[], s.block.settled⟩ } }

theorem startTransmit_of_idle (hidle : s.consumer.channel = .idle) : startTransmit s = .next s.withTransmission := by
  simp [startTransmit, hidle, State.withTransmission]

theorem startAwait_of_busy (hbusy : s.consumer.channel ≠ .idle) : startAwait s = .next s.suspendInAwait := by
  cases hc : s.consumer.channel with
  | idle => exact absurd hc hbusy
  | busy x => simp [startAwait, hc]

/-- An outcome in store is the one drawn (R100; assumption 7). -/
theorem suspendInAwait_of_cons {d : AwaitDraw} {ds : List AwaitDraw} (hd : s.consumer.awaitDraws = d :: ds) :
    s.suspendInAwait = { s with
      host := { s.host with suspension := .awaiting d }, consumer := { s.consumer with awaitDraws := ds } } := by
  simp [State.suspendInAwait, hd]

/-- `TX` on an `idle` channel: a transmission is in flight and the host awaits it (R55, R99). -/
theorem step_tx (hrun : s.host.halted = false) (hsusp : s.host.suspension = .running) (hl : s.host.action = some .tx)
    (hidle : s.consumer.channel = .idle) : step s = .next s.withTransmission.suspendInAwait := by
  rw [step_running hrun hsusp hl, lineStep, startTransmit_of_idle hidle, andThen, startAwait_of_busy]
  exact fun h => nomatch h

end

/-- Settles O36: entering the await takes the outcome in store. -/
theorem everyAwaitOutcomeIsAdmitted : Obligations.EveryAwaitOutcomeIsAdmitted := by
  rintro s d ds hrun hsusp hd (⟨hl, hidle⟩ | ⟨hl, hbusy⟩)
  · refine ⟨_, step_tx hrun hsusp hl hidle, ?_⟩
    rw [suspendInAwait_of_cons (s := s.withTransmission) hd]
    exact ⟨rfl, rfl, rfl⟩
  · refine ⟨_, (step_running hrun hsusp hl).trans (startAwait_of_busy hbusy), ?_⟩
    rw [suspendInAwait_of_cons hd]
    exact ⟨rfl, rfl, rfl⟩

/-- Settles O37: the step of HADV is the advance of `H`, after which the host goes on. -/
theorem hueAdvanceWraps : Obligations.HueAdvanceWraps := by
  intro s hrun hsusp hl hlt
  have hhue : (({ s.host with hue := advanceHue s.host.hue } : HostAgent).proceed).hue = (s.host.hue + 1) % 360 :=
    proceed_hue _
  refine ⟨_, step_running hrun hsusp hl, hhue, ?_, fun h => ?_, fun h => ?_, rfl, rfl, rfl⟩
  · exact hhue.trans_lt (Nat.mod_lt _ (by decide))
  · rw [mapHost_host, hhue, h]
  · rw [mapHost_host, hhue, Nat.mod_eq_of_lt (by omega)]

section
variable {s : State}

/-! #### Sleeps -/

/-- A host wakes as if it had not slept: it runs, and is where it goes on (R98). -/
theorem wake_sleep (d : Duration) (h : HostAgent) : (h.sleep d).wake = h.wake := by
  cases hr : h.retrying <;> cases hp : h.script <;>
    simp [HostAgent.wake, HostAgent.proceed, HostAgent.restartFrame, HostAgent.sleep, hr, hp]

/-- The step after a sleep has begun wakes the host (R98). -/
theorem step_of_sleep (hrun : s.host.halted = false) (d : Duration) :
    step (s.mapHost (HostAgent.sleep d)) = .next (s.mapHost HostAgent.wake) := by
  rw [step_sleeping (s := s.mapHost (HostAgent.sleep d)) hrun rfl, mapHost_mapHost]
  exact congrArg Host.Outcome.next (mapHost_congr (wake_sleep d s.host))

theorem wake_of_not_retrying {h : HostAgent} (hr : h.retrying = false) : h.wake = h.proceed := by
  simp [HostAgent.wake, hr]

theorem wake_of_retrying {h : HostAgent} (hr : h.retrying = true) : h.wake = h.restartFrame := if_pos hr

end

/-- Settles O39: the step that begins the sleep suspends the host, the next one wakes it. -/
theorem sleepSuspendsThenResumes : Obligations.SleepSuspendsThenResumes := by
  intro s n hrun hsusp
  have hresume (d : Duration) : ∃ u, step (s.mapHost (HostAgent.sleep d)) = .next u ∧ u.host.suspension = .running ∧
      u.host.hue = s.host.hue ∧ u.block = s.block ∧ u.consumer = s.consumer :=
    ⟨_, step_of_sleep hrun d, wake_suspension s.host, wake_hue s.host, rfl, rfl⟩
  exact ⟨fun hl => ⟨_, step_running hrun hsusp hl, rfl, hresume (.us n)⟩,
    fun hl => ⟨_, step_running hrun hsusp hl, rfl, hresume (.ms n)⟩⟩

end Sys2Proof.Machine

/-! ### The end of a transmission by a TransmissionFault -/

namespace Sys2Proof.Machine

section
variable {s : State}

/-- A sample takes a draw or none, and changes nothing else (R32, R109). -/
theorem sampleWord_snd (c : Bool) (k : Fin 25) (s : State) : ∃ n, (s.sampleWord c k).2 = { s with draws := n } := by
  unfold State.sampleWord
  split
  · exact ⟨s.draws, rfl⟩
  · exact ⟨s.draws + 1, rfl⟩

/-- Where a fault is due or the words end, the consumer's step ends the transmission (R36, R100; assumption 9). -/
theorem awaitStep_ends {plan : AwaitDraw} {x : Transmission} (hx : s.consumer.channel = .busy x)
    (hend : plan.cutsAt x.sent.length = true ∨ 25 ≤ x.sent.length ∨
      ∃ h : x.sent.length < 25, (s.sampleWord x.clean ⟨x.sent.length, h⟩).1 = 0) :
    ∃ n, awaitStep plan s = .next (({ s with draws := n } : State).endTransmission x plan) := by
  by_cases hcut : plan.cutsAt x.sent.length = true
  · exact ⟨s.draws, by simp [awaitStep, hx, hcut]⟩
  obtain hlong | ⟨hk, hzero⟩ := hend.resolve_left hcut
  · exact ⟨s.draws, by simp [awaitStep, hx, hcut, Nat.not_lt.2 hlong]⟩
  · obtain ⟨n, hn⟩ := sampleWord_snd x.clean ⟨x.sent.length, hk⟩ s
    exact ⟨n, by simp [awaitStep, hx, hcut, hk, hzero, hn]⟩

/-- The step that ends a transmission: the channel is `idle`, the frame is on record, the host observes the result (R99). -/
theorem step_ends {plan : AwaitDraw} {x : Transmission} (hrun : s.host.halted = false)
    (hplan : s.host.suspension = .awaiting plan) (hx : s.consumer.channel = .busy x)
    (hend : plan.cutsAt x.sent.length = true ∨ 25 ≤ x.sent.length ∨
      ∃ h : x.sent.length < 25, (s.sampleWord x.clean ⟨x.sent.length, h⟩).1 = 0) :
    ∃ t, step s = .next t ∧ t.host = s.host.afterAwait s.params.faultPolicy plan.result ∧ t.block = s.block ∧
      t.consumer.channel = .idle ∧ t.consumer.frames = s.consumer.frames ++ [⟨x.sent, plan.result⟩] := by
  obtain ⟨n, hn⟩ := awaitStep_ends hx hend
  exact ⟨_, (step_awaiting hrun hplan).trans hn, rfl, rfl, rfl, rfl⟩

/-- The two steps of the reset delay before a frame is repeated (R100; assumption 15). -/
theorem step_of_retrying (hrun : s.host.halted = false) (hsusp : s.host.suspension = .running)
    (hr : s.host.retrying = true) :
    step s = .next (s.mapHost (HostAgent.sleep (.us 280))) ∧
      step (s.mapHost (HostAgent.sleep (.us 280))) = .next (s.mapHost HostAgent.restartFrame) := by
  have hl : s.host.action = some (.sleepUs 280) := if_pos hr
  refine ⟨step_running hrun hsusp hl, ?_⟩
  rw [step_of_sleep hrun, mapHost_congr (wake_of_retrying hr)]

end

section
variable {h : HostAgent}

/-- After a fault under `retry` the loop is back at step 1 (R100). -/
theorem restartFrame_of_fault_in_loop (hscript : h.script = none) :
    (h.takeTransmissionFault .retry).restartFrame =
      { h with suspension := .running, retrying := false, phase := .compute } := by
  simp [HostAgent.takeTransmissionFault, HostAgent.restartFrame, hscript]

/-- After a fault under `retry` a program is back where its frame starts (assumption 10). -/
theorem restartFrame_of_fault_in_program {p : Script} (hp : h.script = some p) :
    (h.takeTransmissionFault .retry).restartFrame =
      { h with suspension := .running, retrying := false, script := some { p with pos := p.frameStart } } := by
  simp [HostAgent.takeTransmissionFault, HostAgent.restartFrame, hp]

/-- The reset delay that a fault sends the loop to is its step 3 (R100). -/
theorem takeTransmissionFault_phase_of_loop (hscript : h.script = none) :
    (h.takeTransmissionFault .retry).phase = .resetDelay := by
  simp [HostAgent.takeTransmissionFault, hscript]

end

/-- Settles O40: the transmission ends with its fault; then the host is stuck, or sleeps and restarts its frame. -/
theorem transmissionFaultHaltsOrRetries : Obligations.TransmissionFaultHaltsOrRetries := by
  intro s cause cut x hrun hplan hx hend
  obtain ⟨t, ht, hhost, hblock, hidle, hframes⟩ := step_ends hrun hplan hx (hend.imp_left decide_eq_true)
  rw [AwaitDraw.result, HostAgent.afterAwait] at hhost
  have hhue : t.host.hue = s.host.hue := by simp [hhost]
  refine ⟨fun hpolicy => ?_, fun hpolicy => ?_⟩
  · have hhalted : t.host.halted = true := by simp [hhost, hpolicy]
    exact ⟨t, ht, hhalted, hhue, hidle, hframes, hblock, haltedHostHasNoStep t hhalted⟩
  · rw [hpolicy] at hhost
    have hhalted : t.host.halted = false := by simp [hhost, hrun]
    obtain ⟨hsleep, hwake⟩ := step_of_retrying hhalted (by simp [hhost]) (by simp [hhost])
    refine ⟨t, _, _, ht, hhalted, hhue, hidle, hframes, hblock, fun hscript => ?_, hsleep, rfl, hwake,
      by simp, by simp, by simp [hhalted], by simp [hhue], rfl, hblock, fun hscript => ?_, fun p hp => ?_⟩
    · rw [hhost, takeTransmissionFault_phase_of_loop hscript]
    · rw [mapHost_host, hhost, restartFrame_of_fault_in_loop hscript]
      exact ⟨hscript, rfl⟩
    · rw [mapHost_host, hhost, restartFrame_of_fault_in_program hp]

end Sys2Proof.Machine

/-! ### The frame of a hue

A host at a step of the loop, or at the line of the repeated CYCLE that performs it, sends the frame of `H` and goes through
its delays. -/

namespace Sys2Proof.Machine

/-- The host is about to perform a step of the loop, which it runs or which a program of CYCLE performs (R56, R96). -/
structure HostAgent.AtStep (h : HostAgent) (ph : Phase) : Prop where
  notHalted   : h.halted = false
  runs        : h.suspension = .running
  notRetrying : h.retrying = false
  place       : (h.script = none ∧ h.phase = ph) ∨ ∃ start, h.script = some ⟨cycleLines, ph.cyclePos, start⟩

/-- HADV: the hue advances and the host goes on (R97). -/
def HostAgent.advance (h : HostAgent) : HostAgent := ({ h with hue := advanceHue h.hue } : HostAgent).proceed

/-- The last three steps of the loop: its delays, with the advance of `H` between them (R96). -/
def HostAgent.finishCycle (h : HostAgent) : HostAgent := h.proceed.advance.proceed

section
variable {h : HostAgent} {ph : Phase}

theorem HostAgent.AtStep.action (hat : h.AtStep ph) : h.action = some ph.line := by
  obtain ⟨-, -, hr, ⟨hscript, hph⟩ | ⟨start, hscript⟩⟩ := hat
  · simp [HostAgent.action, hr, hscript, hph]
  · simp [HostAgent.action, hr, hscript, cycleLines_cyclePos]

theorem cyclePos_next (hph : ph ≠ .cosmeticDelay) : ph.next.cyclePos = ph.cyclePos + 1 := by
  cases ph with
  | cosmeticDelay => exact absurd rfl hph
  | _ => rfl

theorem HostAgent.AtStep.proceed (hat : h.AtStep ph) (hph : ph ≠ .cosmeticDelay) : h.proceed.AtStep ph.next := by
  obtain ⟨hrun, -, hr, hplace⟩ := hat
  refine ⟨by simp [hrun], by simp, by simp [hr], ?_⟩
  obtain ⟨hscript, rfl⟩ | ⟨start, hscript⟩ := hplace
  · exact .inl (by simp [HostAgent.proceed, hscript])
  · exact .inr ⟨start, by simp [HostAgent.proceed, hscript, cyclePos_next hph]⟩

theorem HostAgent.AtStep.proceedFromIssue (hat : h.AtStep .compute) : h.proceedFromIssue.AtStep .transmit := by
  obtain ⟨hrun, -, hr, hplace⟩ := hat
  refine ⟨by simp [hrun], by simp, by simp [hr], ?_⟩
  obtain ⟨hscript, hph⟩ | ⟨start, hscript⟩ := hplace
  · exact .inl (by simp [HostAgent.proceedFromIssue, hscript, hph, Phase.next])
  · exact .inr ⟨0, by simp [HostAgent.proceedFromIssue, hscript, Phase.cyclePos]⟩

theorem HostAgent.AtStep.advance (hat : h.AtStep .advance) : h.advance.AtStep .cosmeticDelay := by
  obtain ⟨hrun, hruns, hr, hplace⟩ := hat
  exact HostAgent.AtStep.proceed (h := { h with hue := advanceHue h.hue }) ⟨hrun, hruns, hr, hplace⟩ (by decide)

/-- A host goes on from an await as if it had not been suspended (R99). -/
theorem proceed_of_suspended (h : HostAgent) (x : Suspension) :
    ({ h with suspension := x } : HostAgent).proceed = h.proceed := by
  cases hscript : h.script <;> simp [HostAgent.proceed, hscript]

/-- In the loop the host goes on to the next step (R96). -/
theorem proceed_of_loop (hscript : h.script = none) (hruns : h.suspension = .running) :
    h.proceed = { h with phase := h.phase.next } := by
  simp [HostAgent.proceed, hscript, ← hruns]

theorem proceedFromIssue_of_loop (hscript : h.script = none) : h.proceedFromIssue = h.proceed := by
  simp [HostAgent.proceedFromIssue, HostAgent.proceed, hscript]

/-- Through all five steps the loop comes back to the first, with `H` advanced (R96, R97). -/
theorem finishCycle_of_loop (hruns : h.suspension = .running) (hscript : h.script = none) (hph : h.phase = .compute) :
    h.proceedFromIssue.proceed.finishCycle = { h with hue := (h.hue + 1) % 360 } := by
  simp [HostAgent.finishCycle, HostAgent.advance, HostAgent.proceed, HostAgent.proceedFromIssue, hscript, hph, Phase.next,
    advanceHue, Config.hueMod, ← hruns]

/-- Through the five lines of its CYCLE a program comes to its JMP, with `H` advanced (R56, R97). -/
theorem finishCycle_of_program {start : Nat} (hruns : h.suspension = .running)
    (hscript : h.script = some ⟨cycleLines, 0, start⟩) :
    h.proceedFromIssue.proceed.finishCycle =
      { h with hue := (h.hue + 1) % 360, script := some ⟨cycleLines, 5, 0⟩ } := by
  simp [HostAgent.finishCycle, HostAgent.advance, HostAgent.proceed, HostAgent.proceedFromIssue, hscript,
    advanceHue, Config.hueMod, ← hruns]

end

/-! #### Issuing the frame -/

/-- The bundle that `CONVENC H, 255, 255` drives (R96 step 1). -/
def hueBundle (hue : Nat) : InBundle := ⟨2, hueOperand hue, 255, 255, 0, 0, 0⟩

/-- The pulse sequence of a hue at full saturation and value (R96 step 1). -/
def hueSeq (p : Params) (hue : Nat) : PulseSeq := encodeRgb p (hsvToRgb (hueOperand hue) 255 255)

theorem ofCmd_hueCmd (hue : Nat) : InBundle.ofCmd (hueCmd .convenc 255 255 hue) = hueBundle hue :=
  ofCmd_toCmd (hueBundle hue)

theorem blockF_hueBundle (p : Params) (hue : Nat) :
    blockF p (hueBundle hue) = convencOut p (hueOperand hue) 255 255 := blockF_of_op_two rfl

/-- CONVENC is not the reserved operation (R53). -/
theorem afterIssue_hueCmd (h : HostAgent) (hue : Nat) :
    h.afterIssue (hueCmd .convenc 255 255 hue) = h.proceedFromIssue := by
  have hop : opErrOf (Cmd.op (hueCmd .convenc 255 255 hue)) = false := congrArg opErrOf (packCmd_op ..)
  rw [HostAgent.afterIssue, hop, Bool.or_false]

section
variable {s : State}

theorem HostAgent.AtStep.step_eq {ph : Phase} (hat : s.host.AtStep ph) : step s = lineStep ph.line s :=
  step_running hat.notHalted hat.runs hat.action

/-- Step 1 of the loop: the outputs show the color and the sequence of `H`, settled (R96). -/
theorem step_compute (hat : s.host.AtStep .compute) (hidle : s.consumer.channel = .idle) :
    ∃ t, step s = .next t ∧ t.params = s.params ∧
      t.block = ⟨hueBundle s.host.hue, convencOut s.params (hueOperand s.host.hue) 255 255, true⟩ ∧
      t.host = s.host.proceedFromIssue ∧ t.consumer = s.consumer := by
  have hissue : lineStep Phase.compute.line s = issue (hueCmd .convenc 255 255 s.host.hue) s := rfl
  obtain ⟨s1, h1⟩ := drive_of_idle hidle (InBundle.ofCmd (hueCmd .convenc 255 255 s.host.hue))
  have hstep := issue_of_drive h1
  obtain ⟨hp, hc, hb⟩ := issue_frame hstep
  refine ⟨_, hat.step_eq.trans (hissue.trans hstep), hp, ?_, ?_, hc⟩
  · rw [hb, ofCmd_hueCmd, blockF_hueBundle]
  · rw [issue_host hstep, afterIssue_hueCmd]

end

/-- Settles O38: each step of the loop is the step of its line. -/
theorem hostLoopFiveSteps : Obligations.HostLoopFiveSteps := by
  intro s hrun hruns hscript hr
  have hat {ph : Phase} (hph : s.host.phase = ph) : s.host.AtStep ph := ⟨hrun, hruns, hr, .inl ⟨hscript, hph⟩⟩
  have hon {ph : Phase} (hph : s.host.phase = ph) : s.host.proceed = { s.host with phase := ph.next } :=
    hph ▸ proceed_of_loop hscript hruns
  have hresume (d : Duration) {ph : Phase} (hph : s.host.phase = ph) : step (s.mapHost (HostAgent.sleep d)) =
      .next { s with host := { s.host with phase := ph.next } } := by
    rw [step_of_sleep hrun, State.mapHost, wake_of_not_retrying hr, hon hph]
  refine ⟨fun hph hidle => ?_, fun hph hidle => ?_, fun hph => ?_, fun hph => ?_, fun hph => ?_⟩
  · obtain ⟨t, hstep, -, hblock, hhost, hconsumer⟩ := step_compute (hat hph) hidle
    rw [proceedFromIssue_of_loop hscript, hon hph] at hhost
    exact ⟨t, hstep, hblock, hhost, hconsumer⟩
  · obtain ⟨plan, hhost⟩ := suspendInAwait_host s.withTransmission
    exact ⟨_, plan, step_tx hrun hruns (hat hph).action hidle, hhost, suspendInAwait_channel _, suspendInAwait_block _⟩
  · exact ⟨_, (hat hph).step_eq, rfl, hresume _ hph⟩
  · have hadvance := proceed_of_loop (h := { s.host with hue := advanceHue s.host.hue }) hscript hruns
    rw [(hat hph).step_eq, Phase.line, lineStep, State.mapHost, hadvance, hph]
    rfl
  · exact ⟨_, (hat hph).step_eq, rfl, hresume _ hph⟩

section
variable {s : State}

/-! #### Sending the frame -/

/-- How many words of an encoded sequence a transmission sends: all 24 data words, unless a fault comes before (R36,
R100). -/
def AwaitDraw.wordsSent : AwaitDraw → Nat
  | .ok => 24
  | .fault _ cut => min cut 24

/-- A transmission from settled outputs that a fault cuts after `n` words, none of them zero (R100; assumption 25). -/
theorem run_cut {plan : AwaitDraw} (hrun : s.host.halted = false) (hplan : s.host.suspension = .awaiting plan)
    (hset : s.block.settled = true) (hc : s.consumer.channel = .busy ⟨[], true⟩) {n : Nat} (hn : n ≤ 25)
    (hbefore : ∀ k < n, plan.cutsAt k = false) (hcut : plan.cutsAt n = true)
    (hw : ∀ k (hk : k < n), s.block.out.pw[k] ≠ 0) :
    core.run (n + 1) s = .next (s.endTransmission ⟨s.block.out.pw.toList.take n, true⟩ plan) := by
  have hlen : (s.block.out.pw.toList.take n).length = n := List.length_take_of_le (by simpa using hn)
  have hend : step (s.sentFirst n) = .next (s.endTransmission ⟨s.block.out.pw.toList.take n, true⟩ plan) := by
    rw [step_awaiting (s := s.sentFirst n) hrun hplan]
    simp only [awaitStep, State.sentFirst, hlen, hcut, if_true]
    rfl
  rw [run_add n 1 (run_sentFirst hrun hplan hset hc hn hbefore hw), run_succ 0 hend, run_zero]

/-- An encoded sequence is sent up to its terminator, or to the fault drawn (R36, R100). -/
theorem run_encoded {plan : AwaitDraw} {c : Rgb} (hrun : s.host.halted = false)
    (hplan : s.host.suspension = .awaiting plan) (hset : s.block.settled = true)
    (hc : s.consumer.channel = .busy ⟨[], true⟩) (hpw : s.block.out.pw = encodeRgb s.params c) :
    core.run (plan.wordsSent + 1) s =
      .next (s.endTransmission ⟨(encodeRgb s.params c).toList.take plan.wordsSent, true⟩ plan) := by
  have hdata : ∀ k (hk : k < 24), s.block.out.pw[k] ≠ 0 := fun k hk => by
    simpa [hpw, encodeRgb_get, hk] using bitWord_ne_zero _ _
  have hzero : s.block.out.pw[24] = 0 := by simp [hpw, encodeRgb_get]
  rw [← hpw]
  cases plan with
  | ok => exact run_transmission hrun hplan hset hc (by decide) (fun _ _ => rfl) hdata hzero
  | fault cause cut =>
    by_cases hlate : 24 < cut
    · have hwords : (AwaitDraw.fault cause cut).wordsSent = 24 := Nat.min_eq_right hlate.le
      rw [hwords]
      exact run_transmission hrun hplan hset hc (by decide) (fun k hk => decide_eq_false (by omega)) hdata hzero
    · have hwords : (AwaitDraw.fault cause cut).wordsSent = cut := Nat.min_eq_left (Nat.not_lt.1 hlate)
      rw [hwords]
      exact run_cut hrun hplan hset hc (by omega) (fun k hk => decide_eq_false (by omega)) (decide_eq_true le_rfl)
        fun k hk => hdata k (by omega)

/-- Steps 1 and 2 of the loop: the frame of `H` goes on record with the outcome in store, and the host observes it (R96,
R99). -/
theorem run_frame {plan : AwaitDraw} {ds : List AwaitDraw} (hat : s.host.AtStep .compute)
    (hidle : s.consumer.channel = .idle) (hdraws : s.consumer.awaitDraws = plan :: ds) :
    ∃ t, core.run (plan.wordsSent + 3) s = .next t ∧ t.params = s.params ∧
      t.host = ({ s.host.proceedFromIssue with suspension := .awaiting plan } : HostAgent).afterAwait
        s.params.faultPolicy plan.result ∧
      t.consumer = { s.consumer with
        awaitDraws := ds
        frames := s.consumer.frames ++ [⟨(hueSeq s.params s.host.hue).toList.take plan.wordsSent, plan.result⟩] } := by
  obtain ⟨s1, hissue, hparams, hblock, hhost, hconsumer⟩ := step_compute hat hidle
  have hat1 : s1.host.AtStep .transmit := hhost ▸ hat.proceedFromIssue
  have htx := step_tx hat1.notHalted hat1.runs hat1.action (hconsumer ▸ hidle)
  rw [suspendInAwait_of_cons (s := s1.withTransmission) (hconsumer ▸ hdraws)] at htx
  have hset : s1.block.settled = true := congrArg Block.settled hblock
  have hpw : s1.block.out.pw = hueSeq s1.params s.host.hue := by
    rw [hblock, hparams]
    rfl
  have hsend := run_encoded (s := { s1.withTransmission with
      host := { s1.host with suspension := .awaiting plan }
      consumer := { s1.withTransmission.consumer with awaitDraws := ds } })
    hat1.notHalted rfl hset (by simp [State.withTransmission, hset]) hpw
  refine ⟨_, (run_succ _ hissue).trans ((run_succ _ htx).trans hsend), hparams, ?_, ?_⟩
  · simp [State.withTransmission, hhost, hparams]
  · simp [State.withTransmission, hconsumer, hparams, hidle, hueSeq]

/-- A sleep and the waking from it (R98; assumption 15). -/
theorem run_of_sleep {d : Duration} (hrun : s.host.halted = false)
    (h : step s = .next (s.mapHost (HostAgent.sleep d))) : core.run 2 s = .next (s.mapHost HostAgent.wake) := by
  rw [run_succ 1 h, run_succ 0 (step_of_sleep hrun d), run_zero]

/-- A sleep of a host that repeats no frame, after which it goes on. -/
theorem HostAgent.AtStep.run_sleep {ph : Phase} {d : Duration} (hat : s.host.AtStep ph)
    (h : step s = .next (s.mapHost (HostAgent.sleep d))) : core.run 2 s = .next (s.mapHost HostAgent.proceed) := by
  rw [run_of_sleep hat.notHalted h, mapHost_congr (wake_of_not_retrying hat.notRetrying)]

/-- Steps 3 to 5 of the loop, which move the host alone (R96). -/
theorem run_delays (hat : s.host.AtStep .resetDelay) : core.run 5 s = .next (s.mapHost HostAgent.finishCycle) := by
  have hat4 : s.host.proceed.AtStep .advance := hat.proceed (by decide)
  have hat5 := hat4.advance
  have hreset := hat.run_sleep (d := .us 280) hat.step_eq
  have hadvance := HostAgent.AtStep.step_eq (s := s.mapHost HostAgent.proceed) hat4
  have hcosmetic := HostAgent.AtStep.run_sleep (s := (s.mapHost HostAgent.proceed).mapHost HostAgent.advance) (d := .ms 10)
    hat5 (HostAgent.AtStep.step_eq (s := (s.mapHost HostAgent.proceed).mapHost HostAgent.advance) hat5)
  rw [run_add 2 3 hreset, run_succ 2 hadvance]
  exact hcosmetic

/-- The five steps of the loop with `Ok` in store: one whole frame, of `H` (R96, R103). -/
theorem run_cycle {ds : List AwaitDraw} (hat : s.host.AtStep .compute) (hidle : s.consumer.channel = .idle)
    (hdraws : s.consumer.awaitDraws = .ok :: ds) :
    ∃ t, core.run 32 s = .next t ∧ t.params = s.params ∧ t.host = s.host.proceedFromIssue.proceed.finishCycle ∧
      t.consumer = { s.consumer with
        awaitDraws := ds
        frames := s.consumer.frames ++ [⟨(hueSeq s.params s.host.hue).toList.take 24, .ok⟩] } := by
  obtain ⟨t, hframe, hparams, hhost, hconsumer⟩ := run_frame hat hidle hdraws
  have hon : t.host = s.host.proceedFromIssue.proceed := hhost.trans (proceed_of_suspended _ _)
  have hat3 : t.host.AtStep .resetDelay := hon ▸ hat.proceedFromIssue.proceed (by decide)
  exact ⟨_, (run_add 27 5 hframe).trans (run_delays hat3), hparams, congrArg HostAgent.finishCycle hon, hconsumer⟩

end

/-! #### The loop -/

/-- Settles O43: the five steps bring the loop back to step 1. -/
theorem loopIterationSendsTheFrame : Obligations.LoopIterationSendsTheFrame := by
  intro s ds hrun hruns hscript hr hph hidle hdraws
  obtain ⟨t, ht, hparams, hhost, hconsumer⟩ := run_cycle ⟨hrun, hruns, hr, .inl ⟨hscript, hph⟩⟩ hidle hdraws
  exact ⟨t, ht, hhost.trans (finishCycle_of_loop hruns hscript hph), hparams, hconsumer⟩

/-- `n` iterations from hue 0 with `Ok` in store for each: everything but `H` is back, and the frames of the hue ramp are on
record (R97, R103). -/
theorem run_iterations {s : State} (hrun : s.host.halted = false) (hruns : s.host.suspension = .running)
    (hscript : s.host.script = none) (hr : s.host.retrying = false) (hph : s.host.phase = .compute)
    (hhue : s.host.hue = 0) (hidle : s.consumer.channel = .idle) (n : Nat) (ds : List AwaitDraw)
    (hdraws : s.consumer.awaitDraws = List.replicate n .ok ++ ds) :
    ∃ t, core.run (32 * n) s = .next t ∧ t.host = { s.host with hue := n % 360 } ∧ t.params = s.params ∧
      t.consumer = { s.consumer with
        awaitDraws := ds
        frames := s.consumer.frames ++
          (List.range n).map fun i => ⟨(hueSeq s.params (i % 360)).toList.take 24, .ok⟩ } := by
  induction n generalizing ds with
  | zero =>
    obtain rfl : s.consumer.awaitDraws = ds := hdraws
    exact ⟨s, rfl, by rw [Nat.zero_mod, ← hhue], rfl, by simp⟩
  | succ n ih =>
    obtain ⟨t, ht, hhost, hparams, hconsumer⟩ := ih (.ok :: ds) (by simp [hdraws, List.replicate_succ'])
    obtain ⟨u, hu, hhost', hparams', hconsumer'⟩ := loopIterationSendsTheFrame t ds (by simp [hhost, hrun])
      (by simp [hhost, hruns]) (by simp [hhost, hscript]) (by simp [hhost, hr]) (by simp [hhost, hph])
      (by simp [hconsumer, hidle]) (by simp [hconsumer])
    refine ⟨u, (run_add (32 * n) 32 ht).trans hu, ?_, hparams'.trans hparams, ?_⟩
    · simp [hhost', hhost]
    · simp [hconsumer', hconsumer, hhost, hparams, List.range_succ, hueSeq, hueOperand]

/-- Settles O44: by induction on the number of iterations. -/
theorem loopFramesFollowTheHueRamp : Obligations.LoopFramesFollowTheHueRamp := by
  intro n s ds hrun hruns hscript hr hph hhue hidle hdraws
  obtain ⟨t, ht, hhost, -, hconsumer⟩ := run_iterations hrun hruns hscript hr hph hhue hidle n ds hdraws
  exact ⟨t, ht, congrArg HostAgent.hue hhost, (congrArg HostAgent.phase hhost).trans hph,
    (congrArg Consumer.channel hconsumer).trans hidle, congrArg Consumer.awaitDraws hconsumer,
    congrArg Consumer.frames hconsumer⟩

/-! #### A program that repeats CYCLE, under `retry` -/

/-- Steps 1 and 2 of CYCLE and the reset delay after a fault: the program is back at its CONVENC with `H` kept (R100, R101;
assumption 10). -/
theorem run_faulted_cycle {s : State} {cause cut start : Nat} {ds : List AwaitDraw} (hat : s.host.AtStep .compute)
    (hscript : s.host.script = some ⟨cycleLines, 0, start⟩) (hpolicy : s.params.faultPolicy = .retry)
    (hidle : s.consumer.channel = .idle) (hdraws : s.consumer.awaitDraws = .fault cause cut :: ds) :
    ∃ t, core.run (min cut 24 + 5) s = .next t ∧ t.params = s.params ∧
      t.host = { s.host with script := some ⟨cycleLines, 0, 0⟩ } ∧
      t.consumer = { s.consumer with
        awaitDraws := ds
        frames := s.consumer.frames ++
          [⟨(hueSeq s.params s.host.hue).toList.take (min cut 24), .fault cause⟩] } := by
  obtain ⟨t, hframe, hparams, hhost, hconsumer⟩ := run_frame hat hidle hdraws
  rw [hpolicy] at hhost
  have hhalted : t.host.halted = false := by simp [hhost, HostAgent.afterAwait, AwaitDraw.result, hat.notHalted]
  have hretrying : t.host.retrying = true := by simp [hhost, HostAgent.afterAwait, AwaitDraw.result]
  obtain ⟨hsleep, hwake⟩ := step_of_retrying hhalted (by simp [hhost]) hretrying
  have hback : t.host.restartFrame = { s.host with script := some ⟨cycleLines, 0, 0⟩ } := by
    have hissued : s.host.proceedFromIssue.script = some ⟨cycleLines, 1, 0⟩ := by
      simp [HostAgent.proceedFromIssue, hscript]
    refine (congrArg HostAgent.restartFrame hhost).trans ((restartFrame_of_fault_in_program hissued).trans ?_)
    simp [HostAgent.proceedFromIssue, hscript, hat.runs, hat.notRetrying]
  exact ⟨_, (run_add _ 2 hframe).trans ((run_succ 1 hsleep).trans (run_succ 0 hwake)), hparams, hback, hconsumer⟩

/-- The JMP after the last line of CYCLE (R55, R56). -/
theorem run_cycle_jmp {s : State} (hrun : s.host.halted = false) (hruns : s.host.suspension = .running)
    (hr : s.host.retrying = false) (hscript : s.host.script = some ⟨cycleLines, 5, 0⟩) :
    core.run 1 s = .next (s.mapHost (HostAgent.jump 0)) := by
  have hl : s.host.action = some (.jmp 0) := by simp [HostAgent.action, hr, hscript, cycleLines]
  exact run_succ 0 (step_running hrun hruns hl)

/-- Settles O59: a cycle that a fault cuts, and then a whole one and the JMP. -/
theorem cycleProgramRepeatsTheFrame : Obligations.CycleProgramRepeatsTheFrame := by
  refine ⟨cycleLines, assemble_cycle, ?_⟩
  intro s cause cut start ds hrun hruns hscript hr hpolicy hidle hdraws
  have hat : s.host.AtStep .compute := ⟨hrun, hruns, hr, .inr ⟨start, hscript⟩⟩
  obtain ⟨t, ht, hparams, hhost, hconsumer⟩ := run_faulted_cycle hat hscript hpolicy hidle hdraws
  have hat' : t.host.AtStep .compute := hhost ▸ ⟨hrun, hruns, hr, .inr ⟨0, rfl⟩⟩
  obtain ⟨u, hu, -, hhost', hconsumer'⟩ := run_cycle (ds := ds) hat' (by rw [hconsumer, hidle]) (by rw [hconsumer])
  rw [finishCycle_of_program hat'.runs (congrArg HostAgent.script hhost), hhost] at hhost'
  rw [hparams, hhost, hconsumer, List.append_assoc] at hconsumer'
  rw [← List.take_take] at hconsumer hconsumer'
  have hjmp := run_cycle_jmp (s := u) (by rw [hhost', hrun]) (by rw [hhost', hruns]) (by rw [hhost', hr]) (by rw [hhost'])
  exact ⟨t, _, ht, hhost, hconsumer, (run_add 32 1 hu).trans hjmp, congrArg (HostAgent.jump 0) hhost', hconsumer'⟩

end Sys2Proof.Machine

/-! ### Reset and hazards

The window in which the outputs have not settled (R105, R109), and what the host may not do while the channel is `busy` (R110,
R111). -/

namespace Sys2Proof.Machine

section
variable {s : State}

/-! #### Driving the inputs -/

/-- The inputs of a `busy` channel are held (R110). -/
theorem drive_of_busy {b : InBundle} {x : Transmission} (hx : s.consumer.channel = .busy x) (hb : b ≠ s.block.inp) :
    drive b s = .fault .inputChangedWhileBusy := by
  simp [drive, hb, hx]

/-- The line that drives a bundle without waiting (assumption 3). -/
theorem step_drive {w : Cmd} (hrun : s.host.halted = false) (hsusp : s.host.suspension = .running)
    (hl : s.host.action = some (.drive w)) :
    step s = andThen (drive (InBundle.ofCmd w) s) fun t => .next (t.mapHost HostAgent.proceed) :=
  step_running hrun hsusp hl

end

/-- Settles O27: an issue and the line `drive` both begin with the driving that faults. -/
theorem inputChangeWhileBusyFaults : Obligations.InputChangeWhileBusyFaults := by
  intro s x w hx hchange
  have hdrive := drive_of_busy hx hchange
  refine ⟨hdrive, fun hnext => ?_, fun hrun hsusp hl => ?_⟩
  · rw [step_issue hnext, issue, hdrive, andThen]
  · rw [step_drive hrun hsusp hl, hdrive, andThen]

/-- Settles O57: `drive` compares the bundle with the present one first, whatever the channel. -/
theorem drivingThePresentBundleIsNoChange : Obligations.DrivingThePresentBundleIsNoChange := by
  intro s w hpresent
  have hdrive : drive (InBundle.ofCmd w) s = .next s := if_pos hpresent
  refine ⟨hdrive, fun hrun hsusp hl => ?_⟩
  rw [step_drive hrun hsusp hl, hdrive, andThen]

section
variable {s : State}

/-! #### Samples before the outputs have settled -/

/-- A sample of unsettled outputs, or by a transmission that began from such, is the next draw (R109; assumption 8). -/
theorem sampleWord_eq_draw {c : Bool} (h : s.block.settled = false ∨ c = false) (k : Fin 25) :
    s.sampleWord c k = (Config.drawWord s.draws k, { s with draws := s.draws + 1 }) := by
  have hdraw : (s.block.settled && c) = false := Bool.and_eq_false_iff.2 h
  simp [State.sampleWord, hdraw, drawnOut]

/-- A read of unsettled outputs shows the next draw on `readData` (R34, R109). -/
theorem readPulseWord_of_unsettled (hset : s.block.settled = false) {k : Nat} (hk : k < 25) :
    readPulseWord k s = .next { s with
      draws := s.draws + 1, consumer := { s.consumer with readData := Config.drawWord s.draws k } } := by
  rw [readPulseWord, dif_pos hk, sampleWord_eq_draw (.inl hset)]

end

/-- Settles O29: what changes the inputs, what reads before they settle, and what settles them. -/
theorem outputsAreDrawsUntilSettled : Obligations.OutputsAreDrawsUntilSettled := by
  refine ⟨fun s b hchange hidle => ?_, fun s k hset hk => ?_, fun s hrun hsusp hl => ?_⟩
  · have hdrive : drive b s = .next (s.changeInputs b) := by rw [drive_of_allowed (.inr hidle), if_neg hchange]
    exact ⟨_, hdrive, rfl, rfl, rfl, rfl⟩
  · exact ⟨_, readPulseWord_of_unsettled hset hk, rfl, rfl, rfl⟩
  · exact ⟨_, step_running hrun hsusp hl, rfl, rfl⟩

section
variable {s : State} {x : Transmission} {plan : AwaitDraw}

/-! #### Transmissions -/

/-- A second transmission in flight is a fault of the program (R111). -/
theorem startTransmit_of_busy (hx : s.consumer.channel = .busy x) : startTransmit s = .fault .transmitWhileBusy := by
  simp [startTransmit, hx]

/-- `TX` and `transmit` both begin with the start of a transmission, which faults on a `busy` channel (R99, R111). -/
theorem step_transmits_of_busy (hrun : s.host.halted = false) (hsusp : s.host.suspension = .running)
    (hl : s.host.action = some .tx ∨ s.host.action = some .transmit) (hx : s.consumer.channel = .busy x) :
    step s = .fault .transmitWhileBusy := by
  rcases hl with hl | hl
  · rw [step_running hrun hsusp hl, lineStep, startTransmit_of_busy hx, andThen]
  · rw [step_running hrun hsusp hl, lineStep, startTransmit_of_busy hx, andThen]

/-- `transmit` alone: a transmission is in flight and the host goes on (R99). -/
theorem step_transmit (hrun : s.host.halted = false) (hsusp : s.host.suspension = .running)
    (hl : s.host.action = some .transmit) (hidle : s.consumer.channel = .idle) :
    step s = .next (s.withTransmission.mapHost HostAgent.proceed) := by
  rw [step_running hrun hsusp hl, lineStep, startTransmit_of_idle hidle, andThen]

/-- The step of an unclean transmission, no fault due: a zero draw ends it, any other is sent (R35, R36, R109). -/
theorem awaitStep_of_unclean (hx : s.consumer.channel = .busy x) (hclean : x.clean = false)
    (hcut : plan.cutsAt x.sent.length = false) (hk : x.sent.length < 25) :
    awaitStep plan s = .next (if Config.drawWord s.draws x.sent.length = 0
      then ({ s with draws := s.draws + 1 } : State).endTransmission x plan
      else ({ s with draws := s.draws + 1 } : State).sendWord x (Config.drawWord s.draws x.sent.length)) := by
  simp only [awaitStep, hx, hcut, dif_pos hk, sampleWord_eq_draw (.inr hclean)]
  exact (apply_ite Host.Outcome.next _ _ _).symm

/-- After the word of index 24 a transmission ends with no further sample (assumption 9). -/
theorem awaitStep_of_all_sent (hx : s.consumer.channel = .busy x) (hlong : 25 ≤ x.sent.length) :
    awaitStep plan s = .next (s.endTransmission x plan) := by
  simp [awaitStep, hx, Nat.not_lt.2 hlong]

end

/-- Settles O33: on an `idle` channel `TX` goes on into its await, `transmit` to the host's next line. -/
theorem transmitNeedsAnIdleChannel : Obligations.TransmitNeedsAnIdleChannel := by
  intro s hrun hsusp hl
  refine ⟨fun x hx => step_transmits_of_busy hrun hsusp hl hx, fun hidle => ?_⟩
  rcases hl with htx | htransmit
  · exact ⟨_, step_tx hrun hsusp htx hidle, suspendInAwait_channel _, suspendInAwait_block _, suspendInAwait_host_hue _⟩
  · exact ⟨_, step_transmit hrun hsusp htransmit hidle, rfl, rfl, proceed_hue _⟩

/-- Settles O56: by whether words remain, and then by whether the draw is zero. -/
theorem unsettledTransmissionSendsDraws : Obligations.UnsettledTransmissionSendsDraws := by
  intro s plan x hrun hplan hx hclean hcut
  rw [step_awaiting hrun hplan]
  refine ⟨fun hk => ?_, fun hlong => ⟨_, awaitStep_of_all_sent hx hlong, rfl, rfl, rfl⟩⟩
  rw [awaitStep_of_unclean hx hclean hcut hk]
  by_cases hzero : Config.drawWord s.draws x.sent.length = 0
  · rw [if_pos hzero]
    exact ⟨_, rfl, rfl, rfl, .inr ⟨hzero, rfl⟩⟩
  · rw [if_neg hzero]
    exact ⟨_, rfl, rfl, rfl, .inl ⟨hzero, rfl, by rw [sendWord_consumer, hclean]⟩⟩

end Sys2Proof.Machine
